-- ==== Sys2Proof/Word.lean ====
section
/-! DEFINITION. The two kinds of bits the spec works on: 32-bit words and bytes (`00_scope.md` R8, R10). -/

namespace Sys2Proof

/-- `u32`: a 32-bit unsigned word, a register value or a command word (R10, R81, R100). Its `+` is `+32`, addition
modulo 2^32 (R101). -/
abbrev Word := BitVec 32

/-- `u8`: a byte (R10). -/
abbrev Byte := BitVec 8

end Sys2Proof
end

