-- ==== Sys2Proof/Machine/Operands.lean ====
section
/-! DEFINITION. The operands of the commands as bit strings and numbers (`30_encoding.md` R83 to R87, `00_scope.md` R9). -/

namespace Sys2Proof.Machine

/-- The bits of `v` from bit `n - 1` down to bit 0: the bit string of `msg.bits N, VAL` (R84, R136). -/
def bitsDown (n : Nat) (v : Nat) : List Bool := (List.range n).reverse.map v.testBit

/-- `BYTE[7], BYTE[6], ..., BYTE[0]`: the bits of `msg.byte` (R135). -/
def byteBits (b : Byte) : List Bool := bitsDown 8 b.toNat

/-- `VAL[N-1], ..., VAL[0]` (R84, R136). -/
def valBits (n : Nat) (val : Byte) : List Bool := bitsDown n val.toNat

/-- `BLK` as "an unsigned block index 0..65535, zero-extended" (R85). -/
def blockIndex (blk : BitVec 16) : Nat := blk.toNat

end Sys2Proof.Machine
end

