-- ==== Sys2Proof/Config.lean ====
section
/-! DEFINITION. What an implementation fixes: the OPEN parameters of `00_scope.md` R6, R7 and `20_memory.md` R50, the
identification value of R58, and the free values of R12. -/

namespace Sys2Proof

/-- The OPEN parameters, which "the model takes as an argument" (R6). They are configuration, not state of the block (R32):
no step changes them. State carries them so that every statement is about every value of them (log 1). -/
structure Params where
  /-- `MSG_CAP_BYTES`, the capacity of the message buffer in bytes (R6). -/
  msgCap : Nat
  /-- `KEY_CAP_BYTES`, the capacity of the key buffer in bytes (R7). -/
  keyCap : Nat
  /-- `ENGINE_BASE`, the platform address of the register window (R50). -/
  base : Nat
  deriving DecidableEq, Repr

/-- The constraints the spec puts on the parameters: `1 <= MSG_CAP_BYTES <= 2^32 - 1` (R6), the same of `KEY_CAP_BYTES`
(R7), and `ENGINE_BASE` "any multiple of 0x200" (R50). -/
def Params.ok (p : Params) : Bool :=
  decide (1 ≤ p.msgCap ∧ p.msgCap ≤ 2 ^ 32 - 1) && decide (1 ≤ p.keyCap ∧ p.keyCap ≤ 2 ^ 32 - 1) &&
    decide (p.base % 0x200 = 0)

/-- The capacities the spec's own test vectors use (R6: "The test vectors use `MSG_CAP_BYTES = 256`"; R7: 128), with the
window at address 0. DESIGN CHOICE (log 1): `State.reset` has to name some values. -/
def Params.ofVectors : Params := { msgCap := 256, keyCap := 128, base := 0 }

/-- The constant of the `ID` register: the ASCII bytes `S`, `2`, `5`, `6` (R58). -/
def Config.idWord : Word := 0x53323536

/-- The free values of R12 and item U1: what the `n`-th host read of an element that is not valid returns. It has no body, so
nothing can be proved of its values (DESIGN CHOICE of form, log 4). -/
opaque Config.freeWord : Nat → Word

end Sys2Proof
end

