-- ==== Sys2Proof/Syntax.lean ====
section
/-! DEFINITION. The command set of `30_encoding.md` R80 and R88: one constructor per row of the opcode map. -/

namespace Sys2Proof

/-- The 18 commands (R80), with the operands of R83 to R85. -/
inductive Instr where
  /-- `nop` (R220). -/
  | nop
  /-- `sreset` (R221). -/
  | sreset
  /-- `msg.clear` (R134). -/
  | msgClear
  /-- `msg.byte BYTE` (R135); `b` is `IMM8`. -/
  | msgByte (b : Byte)
  /-- `msg.bits N, VAL` (R136); `n` is the bit count `N`, `val` holds the bits in its low `N` bits. -/
  | msgBits (n : Nat) (val : Byte)
  /-- `msg.pad` (R141). -/
  | msgPad
  /-- `key.clear` (R137). -/
  | keyClear
  /-- `key.byte BYTE` (R138); `b` is `IMM8`. -/
  | keyByte (b : Byte)
  /-- `h.init` (R161). -/
  | hInit
  /-- `blk.load BLK` (R162); `blk` is the block index. -/
  | blkLoad (blk : BitVec 16)
  /-- `sched` (R163). -/
  | sched
  /-- `wk.load` (R164). -/
  | wkLoad
  /-- `round` (R165). -/
  | round
  /-- `fold` (R166). -/
  | fold
  /-- `compress BLK` (R167); `blk` is the block index. -/
  | compress (blk : BitVec 16)
  /-- `digest` (R168). -/
  | digest
  /-- `hash` (R176). -/
  | hash
  /-- `hmac` (R205). -/
  | hmac
  deriving DecidableEq, Repr

end Sys2Proof
end

