-- ==== Sys2Proof/Machine/State.lean ====
section
/-! DEFINITION. The state of the block (`10_state.md`), the host events that drive it, the reasons a step can stop, and
reset (R37). -/

namespace Sys2Proof.Machine

/-- A BitBuffer `(data, tv, tc)`: "`data` = ordered sequence of completed bytes; `tail` = optional partial byte accumulator
(value, bit-count < 8)" (R20). The count is below 8 by its type; R21 (2) about the value is `BitBuffer.ok`. -/
structure BitBuffer where
  data : List Byte
  tv : Byte
  tc : Fin 8
  deriving DecidableEq, Repr

/-- The empty buffer, with the tail absent (R37). -/
def BitBuffer.empty : BitBuffer := { data := [], tv := 0, tc := 0 }

/-- `WV` (R26): no element of `W` is valid, `W[0..15]` are, or all 64 are. -/
inductive SchedValid where
  | none
  | lo
  | full
  deriving DecidableEq, Repr

/-- The error codes of R231; "A model may take `ERR_CAUSE` as an enumeration of 0..9" (U7). -/
inductive ErrCode where
  /-- `E_NONE`: no error. -/
  | none
  /-- `E_ILLEGAL` (R232). -/
  | illegal
  /-- `E_MSG_FULL` (R233). -/
  | msgFull
  /-- `E_KEY_FULL` (R234). -/
  | keyFull
  /-- `E_NO_PAD` (R235). -/
  | noPad
  /-- `E_BLK_RANGE` (R236). -/
  | blkRange
  /-- `E_UNINIT` (R237). -/
  | uninit
  /-- `E_SEQ` (R238). -/
  | seq
  /-- `E_KEY_EMPTY` (R239). -/
  | keyEmpty
  /-- `E_MSG_UNALIGNED` (R244). -/
  | msgUnaligned
  deriving DecidableEq, Repr

/-- The width of a host access (R65 names 8, 16, 32 and 64 bits). -/
inductive AccessWidth where
  | w8
  | w16
  | w32
  | w64
  deriving DecidableEq, Repr

/-- What the outside does to the block, one event at a time (R16, R66, R260). Addresses are the platform's; the value of a
write that is not 32 bits wide is never looked at, since the access is refused (log 7). -/
inductive HostEvent where
  /-- A host read at an address. -/
  | read (width : AccessWidth) (addr : Nat)
  /-- A host write of a value at an address. -/
  | write (width : AccessWidth) (addr : Nat) (value : Word)
  /-- The platform's reset input (R260). -/
  | powerOn
  deriving DecidableEq, Repr

/-- A reason the machine stops. The block's own errors are no stops: they are next states (R230, R240). -/
inductive Fault where
  /-- Raised by `msg.pad` and `hash` on a message buffer that breaks R21: "A model that meets a broken invariant is outside the
  rules: **stuck**" (U16). Safe: no run from reset reaches it, and nothing is claimed of what would follow (log 8). -/
  | stuck
  deriving DecidableEq, Repr

/-- A reason a step has no meaning. -/
inductive Refusal where
  /-- Raised by an arm of `exec` for an instruction without a meaning; no arm does. Safe. -/
  | notModelled (mnemonic : String)
  /-- Raised by a host access that is not 32 bits wide: "**refused** (no step)" (R65, U3). Safe. -/
  | notWordAccess (width : AccessWidth)
  /-- Raised by a host access at an offset that is not a multiple of 4 (R65, U3). Safe. -/
  | unalignedAccess (addr : Nat)
  /-- Raised by a host access at an address outside the window, an offset at or above 0x200 among them (R60, U2). Safe. -/
  | outsideWindow (addr : Nat)
  /-- Raised by a host access to a reserved offset, 0x030..0x03C and 0x0A0..0x0FC (R60, U2). Safe. -/
  | reservedOffset (off : Nat)
  deriving DecidableEq, Repr

/-- The state: the record at the head of `10_state.md`, the parameters, and the host's side of the port. -/
structure State where
  /-- `MSG` (R20). -/
  msg : BitBuffer
  /-- `KEY` (R23). -/
  key : List Byte
  /-- `PB`, the padded buffer (R24). -/
  pb : List Byte
  /-- `PBV` (R24). -/
  pbv : Bool
  /-- `H[0..7]` (R25). -/
  h : Vector Word 8
  /-- `HV` (R25). -/
  hv : Bool
  /-- `W[0..63]` (R26). -/
  w : Vector Word 64
  /-- `WV` (R26). -/
  wv : SchedValid
  /-- `WK[0..7]`, the working registers `a` .. `h` in this order (R27). -/
  wk : Vector Word 8
  /-- `WKV` (R27). -/
  wkv : Bool
  /-- `RC`, 0..64 (R28). -/
  rc : Fin 65
  /-- `DG[0..7]` (R29). -/
  dg : Vector Word 8
  /-- `DV` (R29). -/
  dv : Bool
  /-- `FAULT` (R31). -/
  fault : Bool
  /-- `ERR_CAUSE` (R31). -/
  errCause : ErrCode
  /-- `ERR_CMD` (R31). -/
  errCmd : Word
  /-- The OPEN parameters (R6, R7, R50), which no step changes (log 1). -/
  par : Params
  /-- The host events still to come, in the order in which they take effect (R66, R74; log 2). -/
  hostQ : List HostEvent
  /-- What the last host read returned (R66; log 3). -/
  rdata : Word
  /-- How many free values host reads have drawn (R12, U1; log 4). -/
  draws : Nat
  deriving DecidableEq, Repr

/-- The table of R37 for a block with the parameters `p`. What R37 leaves unspecified (`PB`, `H`, `W`, `WK`, `DG`) is empty or
zero here (DESIGN CHOICE, log 5); nothing reads it while its valid bit is 0. -/
def State.resetWith (p : Params) : State where
  msg := .empty
  key := []
  pb := []
  pbv := false
  h := Vector.replicate 8 0
  hv := false
  w := Vector.replicate 64 0
  wv := .none
  wk := Vector.replicate 8 0
  wkv := false
  rc := 0
  dg := Vector.replicate 8 0
  dv := false
  fault := false
  errCause := .none
  errCmd := 0
  par := p
  hostQ := []
  rdata := 0
  draws := 0

/-- The machine right after power-on reset (R37, R260), with the parameters of the spec's vectors (DESIGN CHOICE, log 1) and
no host event pending. -/
def State.reset : State := State.resetWith Params.ofVectors

end Sys2Proof.Machine
end

