-- ==== Sys2Proof/Machine/Buffer.lean ====
section
/-! DEFINITION. BitBuffer, padding and word grouping (`41_bitbuffer.md` sections 1, 4 and 5). -/

namespace Sys2Proof.Machine

/-- `len_bits(MSG) = 8 * len(msg_data) + msg_tc` (R21 (1)). -/
def BitBuffer.lenBits (b : BitBuffer) : Nat := 8 * b.data.length + b.tc.val

/-- The invariants R21 (2) and (3) for a capacity of `cap` bytes; (1) is the definition of `lenBits`. -/
def BitBuffer.ok (cap : Nat) (b : BitBuffer) : Bool :=
  decide (b.tv.toNat < 2 ^ b.tc.val) && decide (b.lenBits ≤ 8 * cap)

/-- The buffer built from a byte string: "length = 8×byte-count, no tail" (R148; log 16). -/
def BitBuffer.ofBytes (s : List Byte) : BitBuffer := { data := s, tv := 0, tc := 0 }

/-- `append_bit(B, x)` (R131): the tail is shifted left, and flushed when it holds 8 bits. -/
def appendBit (b : BitBuffer) (x : Bool) : BitBuffer :=
  let tv := b.tv * 2 + (if x then 1 else 0)
  if b.tc.val + 1 = 8 then { data := b.data ++ [tv], tv := 0, tc := 0 }
  else { data := b.data, tv := tv, tc := b.tc + 1 }

/-- `append_bits(B, x_1 ... x_m)` (R132). -/
def appendBits (b : BitBuffer) (xs : List Bool) : BitBuffer := xs.foldl appendBit b

/-- The condition that ends the loop of R140, as DOC0 writes it (C7; R143 says its second half is redundant). -/
def padDone (len : Nat) : Bool := decide ((len + 64) % 512 = 0) && decide (len > 64)

/-- The loop of R140 that appends 0 bits, with at most `fuel` turns. -/
def padZeros : Nat → BitBuffer → BitBuffer
  | 0, p => p
  | fuel + 1, p => if padDone p.lenBits then p else padZeros fuel (appendBit p false)

/-- `pad(M)` (R140): a 1 bit, 0 bits, the 64-bit length with bit 63 first. It works on a copy (R139). 512 turns always
suffice for the loop (R142; log 16). -/
def pad (m : BitBuffer) : List Byte :=
  (appendBits (padZeros 512 (appendBit m true)) (bitsDown 64 m.lenBits)).data

/-- `BE32(s)` of the 4 bytes `s0 s1 s2 s3` (R145): `s0` is bits 31:24. -/
def be32 (s0 s1 s2 s3 : Byte) : Word := s0 ++ s1 ++ s2 ++ s3

/-- `group(S)` (R145). The block only groups strings whose length is a multiple of 4 (U17; log 15). -/
def groupWords : List Byte → List Word
  | s0 :: s1 :: s2 :: s3 :: rest => be32 s0 s1 s2 s3 :: groupWords rest
  | _ => []

/-- `BYTES_BE(w)` (R146). -/
def bytesBE (w : Word) : List Byte :=
  [w.extractLsb' 24 8, w.extractLsb' 16 8, w.extractLsb' 8 8, w.extractLsb' 0 8]

/-- `digest_bytes(DG)` (R146). -/
def digestBytes (dg : Vector Word 8) : List Byte := dg.toList.flatMap bytesBE

/-- `block_words(PB, b)` (R147): the 16 words of block `b`. -/
def blockWords (pb : List Byte) (b : Nat) : List Word := groupWords ((pb.drop (64 * b)).take 64)

end Sys2Proof.Machine
end

