-- ==== Sys2Proof/Machine/Flags.lean ====
section
/-! DEFINITION. The status the host reads: the error codes, the valid bits, `STATUS` and `NBLK` (`20_memory.md` R52 to R57,
`60_exceptions.md` R231). The block has no arithmetic flags (`10_state.md` R35). -/

namespace Sys2Proof.Machine

/-- The code of an error (R231). -/
def ErrCode.code : ErrCode → BitVec 8
  | .none => 0
  | .illegal => 1
  | .msgFull => 2
  | .keyFull => 3
  | .noPad => 4
  | .blkRange => 5
  | .uninit => 6
  | .seq => 7
  | .keyEmpty => 8
  | .msgUnaligned => 9

/-- The field `WV` of `STATUS` (R52). -/
def SchedValid.code : SchedValid → BitVec 2
  | .none => 0
  | .lo => 1
  | .full => 2

/-- `STATUS` (R52): bit 0 `FAULT`, 1 `PBV`, 2 `HV`, 4:3 `WV`, 5 `WKV`, 6 `DV`, 31:7 read as 0. -/
def statusWord (s : State) : Word :=
  (0 : BitVec 25) ++ BitVec.ofBool s.dv ++ BitVec.ofBool s.wkv ++ s.wv.code ++ BitVec.ofBool s.hv ++
    BitVec.ofBool s.pbv ++ BitVec.ofBool s.fault

/-- `NBLK = len(PB) / 64` when `PBV = 1`, and 0 when `PBV = 0` (R24, R57). -/
def nblk (s : State) : Nat := if s.pbv then s.pb.length / 64 else 0

/-- Is `W[i]` valid (R26, R63)? -/
def schedWordValid (s : State) (i : Nat) : Bool :=
  match s.wv with
  | .none => false
  | .lo => decide (i < 16)
  | .full => true

end Sys2Proof.Machine
end

