-- ==== Sys2Proof/Machine/Ops.lean ====
section
/-! DEFINITION. The shared operations over State: each writes one element together with its valid bit, as the rules of
`10_state.md` do; the fault entry of `60_exceptions.md` R240 and the way out of it (R245) stand at the end. -/

namespace Sys2Proof.Machine

/-- `MSG` (R22). -/
def State.setMsg (s : State) (m : BitBuffer) : State := { s with msg := m }

/-- `KEY` (R23). -/
def State.setKey (s : State) (k : List Byte) : State := { s with key := k }

/-- `PB <- p; PBV <- 1` (R141). -/
def State.setPadded (s : State) (p : List Byte) : State := { s with pb := p, pbv := true }

/-- `H <- h; HV <- 1` (R161). -/
def State.setHash (s : State) (h : Vector Word 8) : State := { s with h := h, hv := true }

/-- `W <- w; WV <- v` (R162, R163). -/
def State.setSched (s : State) (w : Vector Word 64) (v : SchedValid) : State := { s with w := w, wv := v }

/-- `WK <- wk; RC <- rc; WKV <- 1` (R164, R165). -/
def State.setWork (s : State) (wk : Vector Word 8) (rc : Fin 65) : State :=
  { s with wk := wk, wkv := true, rc := rc }

/-- `WKV <- 0`: `WK` become unspecified (R166). The words in State are dead from then on (log 6). -/
def State.dropWork (s : State) : State := { s with wkv := false }

/-- `DG <- d; DV <- 1` (R168). -/
def State.setDigest (s : State) (d : Vector Word 8) : State := { s with dg := d, dv := true }

/-- `PBV <- 0; HV <- 0; WV <- NONE; WKV <- 0; RC <- 0`: what `hmac` leaves unspecified (R205; log 6). -/
def State.dropAll (s : State) : State :=
  { s with pbv := false, hv := false, wv := .none, wkv := false, rc := 0 }

/-- The event that took effect is gone from the host's list. -/
def State.setQueue (s : State) (q : List HostEvent) : State := { s with hostQ := q }

/-- A host read returns `v`. -/
def State.setRead (s : State) (v : Word) : State := { s with rdata := v }

/-- A host read of an element that is not valid returns a fresh free value (R12, U1; log 4). -/
def State.drawRead (s : State) : State :=
  { s with rdata := Config.freeWord s.draws, draws := s.draws + 1 }

/-- Fault entry (R240): `FAULT <- 1`, `ERR_CAUSE <- c`, `ERR_CMD <- v`, and nothing else is written. `v` is the command word. -/
def State.raise (s : State) (c : ErrCode) (v : Word) : State :=
  { s with fault := true, errCause := c, errCmd := v }

/-- The way out of the fault state (R245), and the effect of both reset events (R260): every state element of the block takes its
value of R37. The parameters and the host's side of the port are not the block's state (R32; log 1, log 21). -/
def State.softReset (s : State) : State :=
  { State.resetWith s.par with hostQ := s.hostQ, rdata := s.rdata, draws := s.draws }

end Sys2Proof.Machine
end

