-- ==== Sys2Proof/Machine/Control.lean ====
section
/-! DEFINITION. The engine control commands (`44_control.md`). -/

namespace Sys2Proof.Machine

/-- `nop` (R220): no state is read or written. -/
def execNop (s : State) : Host.Outcome State Fault Refusal := .next s

/-- `sreset` (R221): every state element takes its reset value of R37. -/
def execSreset (s : State) : Host.Outcome State Fault Refusal := .next s.softReset

end Sys2Proof.Machine
end

