-- ==== Sys2Proof/WellFormed.lean ====
section
/-! DEFINITION. Which instructions an assembler may emit (`30_encoding.md` R84, R94). Bytes and block indexes are in range by
their types; the operands of `msg.bits` are checked here. -/

namespace Sys2Proof

/-- `1 <= N <= 8` and `VAL < 2^N` (R84): the legal operands of format `NB`. -/
def bitsLegal (n : Nat) (val : Byte) : Bool :=
  decide (1 ≤ n) && decide (n ≤ 8) && decide (val.toNat < 2 ^ n)

/-- The instruction's operands are in the ranges R94 asks of an assembler's input. -/
def Instr.wellFormed : Instr → Bool
  | .msgBits n val => bitsLegal n val
  | .nop | .sreset | .msgClear | .msgByte _ | .msgPad | .keyClear | .keyByte _ => true
  | .hInit | .blkLoad _ | .sched | .wkLoad | .round | .fold | .compress _ | .digest => true
  | .hash | .hmac => true

end Sys2Proof
end

