-- ==== Sys2Proof/Decode.lean ====
section
/-! DEFINITION. The decoder of `30_encoding.md` R86, total on 32-bit words and rejecting by name, and the encoder of R94, written from
the same formats (R82 to R85) and opcode map (R88). -/

namespace Sys2Proof

/-- Why a word decodes to no command. Every one of them raises `E_ILLEGAL` (R86, R232). -/
inductive DecodeError where
  /-- The opcode is not in the opcode map (R89). -/
  | reservedOpcode
  /-- A bit marked "must be 0" is set (R90). -/
  | reservedBits
  /-- Format `NB` with `N = 0` or `N > 8` (R90). -/
  | badCount
  /-- Format `NB` with `VAL >= 2^N` (R90). -/
  | badValue
  deriving DecidableEq, Repr

/-- `v[31:24]`, the field `OPC` (R81). -/
def opcodeOf (v : Word) : Byte := v.extractLsb' 24 8

/-- Format `N` (R82): bits 23:0 must be 0. -/
def decodeN (v : Word) (i : Instr) : Except DecodeError Instr :=
  if v.extractLsb' 0 24 = 0 then .ok i else .error .reservedBits

/-- Format `I8` (R83): bits 23:8 must be 0, `IMM8` is bits 7:0. -/
def decodeI8 (v : Word) (mk : Byte → Instr) : Except DecodeError Instr :=
  if v.extractLsb' 8 16 = 0 then .ok (mk (v.extractLsb' 0 8)) else .error .reservedBits

/-- Format `NB` (R84): bits 23:12 must be 0, `N` is bits 11:8 and lies in 1..8, `VAL` is bits 7:0 and is below `2^N`. -/
def decodeNB (v : Word) (mk : Nat → Byte → Instr) : Except DecodeError Instr :=
  if v.extractLsb' 12 12 ≠ 0 then .error .reservedBits
  else
    let n := (v.extractLsb' 8 4).toNat
    let val : Byte := v.extractLsb' 0 8
    if n = 0 ∨ n > 8 then .error .badCount
    else if val.toNat ≥ 2 ^ n then .error .badValue
    else .ok (mk n val)

/-- Format `B16` (R85): bits 23:16 must be 0, `BLK` is bits 15:0. -/
def decodeB16 (v : Word) (mk : BitVec 16 → Instr) : Except DecodeError Instr :=
  if v.extractLsb' 16 8 = 0 then .ok (mk (v.extractLsb' 0 16)) else .error .reservedBits

/-- R86 over the opcode map R88: every word is one command or is rejected by name. -/
def decode (v : Word) : Except DecodeError Instr :=
  match (opcodeOf v).toNat with
  | 0x00 => decodeN v .nop
  | 0x01 => decodeN v .sreset
  | 0x10 => decodeN v .msgClear
  | 0x11 => decodeI8 v .msgByte
  | 0x12 => decodeNB v .msgBits
  | 0x13 => decodeN v .msgPad
  | 0x18 => decodeN v .keyClear
  | 0x19 => decodeI8 v .keyByte
  | 0x20 => decodeN v .hInit
  | 0x21 => decodeB16 v .blkLoad
  | 0x22 => decodeN v .sched
  | 0x23 => decodeN v .wkLoad
  | 0x24 => decodeN v .round
  | 0x25 => decodeN v .fold
  | 0x26 => decodeB16 v .compress
  | 0x27 => decodeN v .digest
  | 0x30 => decodeN v .hash
  | 0x31 => decodeN v .hmac
  | _ => .error .reservedOpcode

/-- The opcode of each command (R88). -/
def Instr.opcode : Instr → Byte
  | .nop => 0x00
  | .sreset => 0x01
  | .msgClear => 0x10
  | .msgByte _ => 0x11
  | .msgBits _ _ => 0x12
  | .msgPad => 0x13
  | .keyClear => 0x18
  | .keyByte _ => 0x19
  | .hInit => 0x20
  | .blkLoad _ => 0x21
  | .sched => 0x22
  | .wkLoad => 0x23
  | .round => 0x24
  | .fold => 0x25
  | .compress _ => 0x26
  | .digest => 0x27
  | .hash => 0x30
  | .hmac => 0x31

/-- The operand bits of each command, at their places (R94). -/
def Instr.operandBits : Instr → Word
  | .msgByte b | .keyByte b => b.setWidth 32
  | .msgBits n val => (BitVec.ofNat 32 n <<< 8) ||| val.setWidth 32
  | .blkLoad blk | .compress blk => blk.setWidth 32
  | .nop | .sreset | .msgClear | .msgPad | .keyClear | .hInit | .sched | .wkLoad => 0
  | .round | .fold | .digest | .hash | .hmac => 0

/-- `(OPC << 24) | operands` (R94): the word of a well-formed instruction. -/
def encode (i : Instr) : Word := (i.opcode.setWidth 32 <<< 24) ||| i.operandBits

/-- The assembler of R94: it "rejects operands out of range ... rather than emit an illegal word". -/
def assemble (i : Instr) : Option Word := if i.wellFormed then some (encode i) else none

/-- The decoder on an instruction whose bits are numbered as `spec/opcode_table.json` numbers them. A command is one 32-bit
word and a word is a number (R69, R81), so bit `k` of the table is bit `k` of the word (log 12). -/
def decodeTableWord (nbits w : Nat) : Option Instr :=
  if nbits ≤ 32 then
    match decode (BitVec.ofNat 32 (w % 2 ^ nbits)) with
    | .ok i => some i
    | .error _ => none
  else none

end Sys2Proof
end

