-- ==== Sys2Proof/Machine/WordOps.lean ====
section
/-! DEFINITION. The 32-bit word functions and the constant tables of `40_word_ops.md`. `+32` is the `+` of words (R101). -/

namespace Sys2Proof.Machine

/-- `rotr(x, n)` (R102), for `1 <= n <= 31`. -/
def rotr (x : Word) (n : Nat) : Word := (x >>> n) ||| (x <<< (32 - n))

/-- `shr(x, n)` (R103), the logical shift right. -/
def shr (x : Word) (n : Nat) : Word := x >>> n

/-- `not32(x)` (R104). -/
def not32 (x : Word) : Word := ~~~x

/-- `Ch(e, f, g)` (R106). -/
def ch (e f g : Word) : Word := (e &&& f) ^^^ (not32 e &&& g)

/-- `Maj(a, b, c)` (R107). -/
def maj (a b c : Word) : Word := (a &&& b) ^^^ (a &&& c) ^^^ (b &&& c)

/-- `Sigma0(a)` (R108). -/
def bigSigma0 (a : Word) : Word := rotr a 2 ^^^ rotr a 13 ^^^ rotr a 22

/-- `Sigma1(e)` (R109). -/
def bigSigma1 (e : Word) : Word := rotr e 6 ^^^ rotr e 11 ^^^ rotr e 25

/-- `sigma0(x)` (R110). -/
def smallSigma0 (x : Word) : Word := rotr x 7 ^^^ rotr x 18 ^^^ shr x 3

/-- `sigma1(x)` (R111). -/
def smallSigma1 (x : Word) : Word := rotr x 17 ^^^ rotr x 19 ^^^ shr x 10

/-- `IV[0..7]` (R112, PRESUMED: the spec supplies the words from general knowledge, log 11). -/
def iv : Vector Word 8 :=
  #v[0x6A09E667, 0xBB67AE85, 0x3C6EF372, 0xA54FF53A, 0x510E527F, 0x9B05688C, 0x1F83D9AB, 0x5BE0CD19]

/-- The rows `r = 0 .. 3` of the table of R113. -/
def kRowsLow : List (List Word) :=
  [[0x428A2F98, 0x71374491, 0xB5C0FBCF, 0xE9B5DBA5, 0x3956C25B, 0x59F111F1, 0x923F82A4, 0xAB1C5ED5],
   [0xD807AA98, 0x12835B01, 0x243185BE, 0x550C7DC3, 0x72BE5D74, 0x80DEB1FE, 0x9BDC06A7, 0xC19BF174],
   [0xE49B69C1, 0xEFBE4786, 0x0FC19DC6, 0x240CA1CC, 0x2DE92C6F, 0x4A7484AA, 0x5CB0A9DC, 0x76F988DA],
   [0x983E5152, 0xA831C66D, 0xB00327C8, 0xBF597FC7, 0xC6E00BF3, 0xD5A79147, 0x06CA6351, 0x14292967]]

/-- The rows `r = 4 .. 7` of the table of R113. -/
def kRowsHigh : List (List Word) :=
  [[0x27B70A85, 0x2E1B2138, 0x4D2C6DFC, 0x53380D13, 0x650A7354, 0x766A0ABB, 0x81C2C92E, 0x92722C85],
   [0xA2BFE8A1, 0xA81A664B, 0xC24B8B70, 0xC76C51A3, 0xD192E819, 0xD6990624, 0xF40E3585, 0x106AA070],
   [0x19A4C116, 0x1E376C08, 0x2748774C, 0x34B0BCB5, 0x391C0CB3, 0x4ED8AA4A, 0x5B9CCA4F, 0x682E6FF3],
   [0x748F82EE, 0x78A5636F, 0x84C87814, 0x8CC70208, 0x90BEFFFA, 0xA4506CEB, 0xBEF9A3F7, 0xC67178F2]]

/-- The round constants `K[0..63]` in order (R113, PRESUMED as `iv`, log 11). -/
def kTable : List Word := (kRowsLow ++ kRowsHigh).flatten

/-- `K[t]`, used for `t` in 0..63 only (R165; log 17). -/
def roundK (t : Nat) : Word := kTable.getD t 0

end Sys2Proof.Machine
end

