-- ==== Sys2Proof/Machine/Sha.lean ====
section
/-! DEFINITION. The pure functions of the SHA-256 engine (`42_sha256.md` section 1 and the functions its command rules name)
and of the HMAC core (`43_hmac.md` section 1). -/

namespace Sys2Proof.Machine

/-- `W[i]`, used for `i` in 0..63 only (log 17). -/
def wordAt (w : Vector Word 64) (i : Nat) : Word := w.getD i 0

/-- `W[0..15] <- ws`, the other words kept (R162). -/
def loadLow (w : Vector Word 64) (ws : List Word) : Vector Word 64 :=
  Vector.ofFn fun i => if i.val < 16 then ws.getD i.val 0 else w[i]

/-- `sched_word(W, i)` (R163). -/
def schedWord (w : Vector Word 64) (i : Nat) : Word :=
  wordAt w (i - 16) + smallSigma0 (wordAt w (i - 15)) + wordAt w (i - 7) + smallSigma1 (wordAt w (i - 2))

/-- `for i in 16 .. 63: W[i] <- sched_word(W, i)`, ascending (R163). -/
def expand (w : Vector Word 64) : Vector Word 64 :=
  (List.range' 16 48).foldl (fun w i => w.setIfInBounds i (schedWord w i)) w

/-- `round_fn((a, ..., h), t, wt)` (R165). All eight new words are computed from the old ones (R175). -/
def roundFn (wk : Vector Word 8) (t : Nat) (wt : Word) : Vector Word 8 :=
  let temp1 := wk[7] + bigSigma1 wk[4] + ch wk[4] wk[5] wk[6] + roundK t + wt
  let temp2 := bigSigma0 wk[0] + maj wk[0] wk[1] wk[2]
  #v[temp1 + temp2, wk[0], wk[1], wk[2], wk[3] + temp1, wk[4], wk[5], wk[6]]

/-- The rounds `0 .. n - 1` in order: `WK <- round_fn(WK, t, W[t])` for each `t` (R160, R167). -/
def runRounds (w : Vector Word 64) (wk : Vector Word 8) : Nat → Vector Word 8
  | 0 => wk
  | n + 1 => roundFn (runRounds w wk n) n (wordAt w n)

/-- `H[i] +32 WK[i]` for `i` in 0..7 (R166). -/
def addFiles (h wk : Vector Word 8) : Vector Word 8 := Vector.ofFn fun i => h[i] + wk[i]

/-- `compress_block(Hin, M16)` (R160). -/
def compressBlock (hin : Vector Word 8) (m16 : List Word) : Vector Word 8 :=
  let w := expand (loadLow (Vector.replicate 64 0) m16)
  addFiles hin (runRounds w hin 64)

/-- `sha256(M)` (R169): the blocks of the padded message in ascending order, from the IV. -/
def sha256 (m : BitBuffer) : Vector Word 8 :=
  let p := pad m
  (List.range (p.length / 64)).foldl (fun st b => compressBlock st (blockWords p b)) iv

/-- `sha256_bytes(s)` (R169), the `Hash` of `43_hmac.md`. -/
def sha256Bytes (s : List Byte) : List Byte := digestBytes (sha256 (BitBuffer.ofBytes s))

/-- `k'`: "If `len(secret) > 64` bytes, replace secret with `H(secret)`" (R201). -/
def keyReduce (k : List Byte) : List Byte := if k.length > 64 then sha256Bytes k else k

/-- `K0 = k' || zeros(64 - len(k'))` (R203). -/
def keyBlock (k : List Byte) : List Byte :=
  keyReduce k ++ List.replicate (64 - (keyReduce k).length) 0

/-- `K0 xor pad`, byte by byte, for a pad of 64 equal bytes (R202, R203). -/
def xorPad (k0 : List Byte) (p : Byte) : List Byte := k0.map (· ^^^ p)

/-- The byte of `ipad` (R202). -/
def ipadByte : Byte := 0x36

/-- The byte of `opad` (R202). -/
def opadByte : Byte := 0x5C

/-- `hmac_fn(k, m)` (R204). -/
def hmacFn (k m : List Byte) : List Byte :=
  let inner := sha256Bytes (xorPad (keyBlock k) ipadByte ++ m)
  sha256Bytes (xorPad (keyBlock k) opadByte ++ inner)

/-- `BE32(d[4i .. 4i+4))` for `i` in 0..7 (R205). -/
def digestWords (d : List Byte) : Vector Word 8 := Vector.ofFn fun i => (groupWords d).getD i.val 0

end Sys2Proof.Machine
end

