-- ==== Sys2Proof/Machine/Hmac.lean ====
section
/-! DEFINITION. The command of the HMAC core (`43_hmac.md` section 2). -/

namespace Sys2Proof.Machine

/-- `hmac` (R205): `E_KEY_EMPTY`, then `E_MSG_UNALIGNED`. -/
def execHmac (s : State) : Host.Outcome State Fault Refusal :=
  if s.key = [] then .next (s.raise .keyEmpty (encode .hmac))
  else if s.msg.tc ≠ 0 then .next (s.raise .msgUnaligned (encode .hmac))
  else .next (s.setDigest (digestWords (hmacFn s.key s.msg.data))).dropAll

end Sys2Proof.Machine
end

