-- ==== Sys2Proof/Machine/MsgKey.lean ====
section
/-! DEFINITION. The message and key buffer commands (`41_bitbuffer.md` sections 2 to 4). The word an error records in `ERR_CMD` is
the command's own word (R240; log 9). -/

namespace Sys2Proof.Machine

/-- Append bits to `MSG`, or raise `E_MSG_FULL` with nothing appended when they do not fit (R233). `v` is the command word. -/
def appendToMsg (bits : List Bool) (v : Word) (s : State) : State :=
  if s.msg.lenBits + bits.length > 8 * s.par.msgCap then s.raise .msgFull v
  else s.setMsg (appendBits s.msg bits)

/-- `msg.clear` (R134). -/
def execMsgClear (s : State) : Host.Outcome State Fault Refusal := .next (s.setMsg .empty)

/-- `msg.byte BYTE` (R135). -/
def execMsgByte (b : Byte) (s : State) : Host.Outcome State Fault Refusal :=
  .next (appendToMsg (byteBits b) (encode (.msgByte b)) s)

/-- `msg.bits N, VAL` (R136). -/
def execMsgBits (n : Nat) (val : Byte) (s : State) : Host.Outcome State Fault Refusal :=
  .next (appendToMsg (valBits n val) (encode (.msgBits n val)) s)

/-- `msg.pad` (R141). On a buffer that breaks R21 the padding is outside the rules (U16; log 8). -/
def execMsgPad (s : State) : Host.Outcome State Fault Refusal :=
  if s.msg.ok s.par.msgCap then .next (s.setPadded (pad s.msg)) else .fault .stuck

/-- `key.clear` (R137). -/
def execKeyClear (s : State) : Host.Outcome State Fault Refusal := .next (s.setKey [])

/-- `key.byte BYTE` (R138). -/
def execKeyByte (b : Byte) (s : State) : Host.Outcome State Fault Refusal :=
  if s.key.length + 1 > s.par.keyCap then .next (s.raise .keyFull (encode (.keyByte b)))
  else .next (s.setKey (s.key ++ [b]))

end Sys2Proof.Machine
end

