-- ==== Sys2Proof/Machine/Sha256.lean ====
section
/-! DEFINITION. The commands of the SHA-256 engine (`42_sha256.md`). Checks stand in the order the rules list them (R242). -/

namespace Sys2Proof.Machine

/-- `h.init` (R161). -/
def execHInit (s : State) : Host.Outcome State Fault Refusal := .next (s.setHash iv)

/-- `blk.load BLK` (R162): `E_NO_PAD`, then `E_BLK_RANGE`. -/
def execBlkLoad (blk : BitVec 16) (s : State) : Host.Outcome State Fault Refusal :=
  if s.pbv = false then .next (s.raise .noPad (encode (.blkLoad blk)))
  else if blockIndex blk ≥ nblk s then .next (s.raise .blkRange (encode (.blkLoad blk)))
  else .next (s.setSched (loadLow s.w (blockWords s.pb (blockIndex blk))) .lo)

/-- `sched` (R163). -/
def execSched (s : State) : Host.Outcome State Fault Refusal :=
  if s.wv = .none then .next (s.raise .uninit (encode .sched))
  else .next (s.setSched (expand s.w) .full)

/-- `wk.load` (R164). -/
def execWkLoad (s : State) : Host.Outcome State Fault Refusal :=
  if s.hv = false then .next (s.raise .uninit (encode .wkLoad))
  else .next (s.setWork s.h 0)

/-- `round` (R165): `E_UNINIT`, then `E_SEQ`. -/
def execRound (s : State) : Host.Outcome State Fault Refusal :=
  if s.wkv = false ∨ s.wv ≠ .full then .next (s.raise .uninit (encode .round))
  else if s.rc = 64 then .next (s.raise .seq (encode .round))
  else .next (s.setWork (roundFn s.wk s.rc.val (wordAt s.w s.rc.val)) (s.rc + 1))

/-- `fold` (R166): `E_UNINIT`, then `E_SEQ`. -/
def execFold (s : State) : Host.Outcome State Fault Refusal :=
  if s.wkv = false ∨ s.hv = false then .next (s.raise .uninit (encode .fold))
  else if s.rc ≠ 64 then .next (s.raise .seq (encode .fold))
  else .next (s.setHash (addFiles s.h s.wk)).dropWork

/-- The body of `compress b` without its checks (R167), which `hash` runs too (R176). -/
def compressBody (b : Nat) (s : State) : State :=
  let w := expand (loadLow s.w (blockWords s.pb b))
  let wk := runRounds w s.h 64
  (((s.setSched w .full).setWork wk 64).setHash (addFiles s.h wk)).dropWork

/-- `compress BLK` (R167): `E_NO_PAD`, `E_BLK_RANGE`, then `E_UNINIT`. -/
def execCompress (blk : BitVec 16) (s : State) : Host.Outcome State Fault Refusal :=
  if s.pbv = false then .next (s.raise .noPad (encode (.compress blk)))
  else if blockIndex blk ≥ nblk s then .next (s.raise .blkRange (encode (.compress blk)))
  else if s.hv = false then .next (s.raise .uninit (encode (.compress blk)))
  else .next (compressBody (blockIndex blk) s)

/-- `digest` (R168). -/
def execDigest (s : State) : Host.Outcome State Fault Refusal :=
  if s.hv = false then .next (s.raise .uninit (encode .digest))
  else .next (s.setDigest s.h)

/-- The blocks `0 .. n - 1` in ascending order (R176). -/
def compressAll (n : Nat) (s : State) : State := (List.range n).foldl (fun t b => compressBody b t) s

/-- `hash` (R176). On a buffer that breaks R21 the padding is outside the rules (U16; log 8). -/
def execHash (s : State) : Host.Outcome State Fault Refusal :=
  if s.msg.ok s.par.msgCap then
    let s1 := (s.setPadded (pad s.msg)).setHash iv
    let s2 := compressAll (nblk s1) s1
    .next (s2.setDigest s2.h)
  else .fault .stuck

end Sys2Proof.Machine
end

