-- ==== Sys2Proof/Machine/Dispatch.lean ====
section
/-! DEFINITION. One arm per command of `30_encoding.md` R88. -/

namespace Sys2Proof.Machine

def exec (i : Instr) (s : State) : Host.Outcome State Fault Refusal :=
  match i with
  | .nop => Sys2Proof.Machine.execNop s
  | .sreset => Sys2Proof.Machine.execSreset s
  | .msgClear => Sys2Proof.Machine.execMsgClear s
  | .msgByte b => Sys2Proof.Machine.execMsgByte b s
  | .msgBits n val => Sys2Proof.Machine.execMsgBits n val s
  | .msgPad => Sys2Proof.Machine.execMsgPad s
  | .keyClear => Sys2Proof.Machine.execKeyClear s
  | .keyByte b => Sys2Proof.Machine.execKeyByte b s
  | .hInit => Sys2Proof.Machine.execHInit s
  | .blkLoad blk => Sys2Proof.Machine.execBlkLoad blk s
  | .sched => Sys2Proof.Machine.execSched s
  | .wkLoad => Sys2Proof.Machine.execWkLoad s
  | .round => Sys2Proof.Machine.execRound s
  | .fold => Sys2Proof.Machine.execFold s
  | .compress blk => Sys2Proof.Machine.execCompress blk s
  | .digest => Sys2Proof.Machine.execDigest s
  | .hash => Sys2Proof.Machine.execHash s
  | .hmac => Sys2Proof.Machine.execHmac s

end Sys2Proof.Machine
end

