-- ==== Sys2Proof/Machine/Bus.lean ====
section
/-! DEFINITION. The host's register window (`20_memory.md`): the map, what each register reads, and what a host event does. A write to
`CMD` is where a command is taken in and run (R51). -/

namespace Sys2Proof.Machine

/-- The registers of the map of R50. -/
inductive HostReg where
  | cmd
  | status
  | errCause
  | errCmd
  | msgLenLo
  | msgLenHi
  | keyLen
  | rc
  | nblk
  | id
  | msgCap
  | keyCap
  | h (i : Fin 8)
  | wk (i : Fin 8)
  | dg (i : Fin 8)
  | w (i : Fin 64)
  deriving DecidableEq, Repr

/-- The registers below the files, in the order of their offsets 0x000 .. 0x02C (R50). -/
def lowRegs : List HostReg :=
  [.cmd, .status, .errCause, .errCmd, .msgLenLo, .msgLenHi, .keyLen, .rc, .nblk, .id, .msgCap, .keyCap]

/-- The register at an aligned offset of the window, if one is there (R50); the other offsets are reserved (R60). -/
def regAt (off : Nat) : Option HostReg :=
  let k := off / 4
  if k < 12 then lowRegs[k]?
  else if k < 16 then none
  else if k < 24 then some (.h (Fin.ofNat 8 (k - 16)))
  else if k < 32 then some (.wk (Fin.ofNat 8 (k - 24)))
  else if k < 40 then some (.dg (Fin.ofNat 8 (k - 32)))
  else if k < 64 then none
  else if k < 128 then some (.w (Fin.ofNat 64 (k - 64)))
  else none

/-- The offset of each register (R50). -/
def HostReg.offset : HostReg → Nat
  | .cmd => 0x000
  | .status => 0x004
  | .errCause => 0x008
  | .errCmd => 0x00C
  | .msgLenLo => 0x010
  | .msgLenHi => 0x014
  | .keyLen => 0x018
  | .rc => 0x01C
  | .nblk => 0x020
  | .id => 0x024
  | .msgCap => 0x028
  | .keyCap => 0x02C
  | .h i => 0x040 + 4 * i.val
  | .wk i => 0x060 + 4 * i.val
  | .dg i => 0x080 + 4 * i.val
  | .w i => 0x100 + 4 * i.val

/-- What a register reads (R51 to R63), or `none` where the element is not valid and the read is a free value (R12). -/
def readReg (r : HostReg) (s : State) : Option Word :=
  match r with
  | .cmd => some 0
  | .status => some (statusWord s)
  | .errCause => some (s.errCause.code.setWidth 32)
  | .errCmd => some s.errCmd
  | .msgLenLo => some (BitVec.ofNat 32 s.msg.lenBits)
  | .msgLenHi => some (BitVec.ofNat 32 (s.msg.lenBits / 2 ^ 32))
  | .keyLen => some (BitVec.ofNat 32 s.key.length)
  | .rc => some (BitVec.ofNat 32 s.rc.val)
  | .nblk => some (BitVec.ofNat 32 (nblk s))
  | .id => some Config.idWord
  | .msgCap => some (BitVec.ofNat 32 s.par.msgCap)
  | .keyCap => some (BitVec.ofNat 32 s.par.keyCap)
  | .h i => if s.hv then some s.h[i] else none
  | .wk i => if s.wkv then some s.wk[i] else none
  | .dg i => if s.dv then some s.dg[i] else none
  | .w i => if schedWordValid s i.val then some s.w[i] else none

/-- A host read: it returns the register's value, or a fresh free value (R12, R67); it has no other effect (R65). -/
def hostRead (r : HostReg) (s : State) : State :=
  match readReg r s with
  | some v => s.setRead v
  | none => s.drawRead

/-- Run the command word `v` (R51): decode it (R86), raise `E_ILLEGAL` where that fails (R232), else apply the command's rule. -/
def runCommand (v : Word) (s : State) : Host.Outcome State Fault Refusal :=
  match decode v with
  | .ok i => exec i s
  | .error _ => .next (s.raise .illegal v)

/-- A host write of `v` to `CMD` (R51): in the fault state every word but 0x01000000 (`sreset`) is dropped, before it is decoded
(R241, R242 (1)). -/
def cmdWrite (v : Word) (s : State) : Host.Outcome State Fault Refusal :=
  if s.fault = true ∧ v ≠ 0x01000000 then .next s else runCommand v s

/-- A host write: only `CMD` acts; "A host write to a read-only register ... is ignored" (R65, U4). -/
def hostWrite (r : HostReg) (v : Word) (s : State) : Host.Outcome State Fault Refusal :=
  if r = .cmd then cmdWrite v s else .next s

/-- Which register an access names, or why it is refused (R60, R65; the order of the checks is log 19). -/
def locate (p : Params) (width : AccessWidth) (addr : Nat) : Except Refusal HostReg :=
  if width ≠ .w32 then .error (.notWordAccess width)
  else if addr < p.base ∨ addr ≥ p.base + 0x200 then .error (.outsideWindow addr)
  else if (addr - p.base) % 4 ≠ 0 then .error (.unalignedAccess addr)
  else
    match regAt (addr - p.base) with
    | some r => .ok r
    | none => .error (.reservedOffset (addr - p.base))

/-- One event of the outside (R16, R66, R260). -/
def hostEvent (e : HostEvent) (s : State) : Host.Outcome State Fault Refusal :=
  match e with
  | .read width addr =>
    match locate s.par width addr with
    | .ok r => .next (hostRead r s)
    | .error x => .refused x
  | .write width addr v =>
    match locate s.par width addr with
    | .ok r => hostWrite r v s
    | .error x => .refused x
  | .powerOn => .next s.softReset

/-- The host's next event takes effect (R66). With none pending the block "is idle and holds its state" (R255). -/
def takeEvent (s : State) : Host.Outcome State Fault Refusal :=
  match s.hostQ with
  | [] => .next s
  | e :: rest => hostEvent e (s.setQueue rest)

/-- The event of a host write of the word `v` to `CMD` (R51, R95). -/
def cmdEvent (p : Params) (v : Word) : HostEvent := .write .w32 (p.base + HostReg.offset .cmd) v

/-- The host issues a write of `w`, of `nbits` bits, to `CMD` as its next access (log 13). -/
def issueWord (s : State) (nbits w : Nat) : State :=
  s.setQueue (cmdEvent s.par (BitVec.ofNat 32 (w % 2 ^ nbits)) :: s.hostQ)

end Sys2Proof.Machine
end

