-- ==== Sys2Proof/Machine/Step.lean ====
section
/-! DEFINITION. One step: the host's next event, with the whole command it may start (`00_scope.md` R16, `20_memory.md` R66). -/

namespace Sys2Proof.Machine

/-- One step of the machine (R16: "A model therefore needs one step per host access"). -/
def step (s : State) : Host.Outcome State Fault Refusal := takeEvent s

/-- The state in which the next step takes in and runs the command word `w` (log 13). -/
def State.withFetchWord (s : State) (nbits w : Nat) : State := issueWord s nbits w

end Sys2Proof.Machine
end

