-- ==== Sys2Proof/Machine/Program.lean ====
section
/-! DEFINITION. Host program text as data: the lines of `30_encoding.md` R95 and the pseudo-instructions of R96, and the host's
hexadecimal form of a digest (R177). Text strings stand as the bytes the host made of them (R5 (4)). -/

namespace Sys2Proof.Machine

/-- One line of a host program (R95). -/
inductive HostLine where
  /-- A command: a host write of its word to `CMD`. -/
  | command (i : Instr)
  /-- `rd NAME`. -/
  | rd (r : HostReg)
  /-- `wr NAME, VALUE`. -/
  | wr (r : HostReg) (v : Word)
  deriving DecidableEq, Repr

/-- The event a line stands for (R95). -/
def HostLine.event (p : Params) : HostLine → HostEvent
  | .command i => cmdEvent p (encode i)
  | .rd r => .read .w32 (p.base + r.offset)
  | .wr r v => .write .w32 (p.base + r.offset) v

/-- The pseudo-instructions of R96. -/
inductive Pseudo where
  | msgBytes (s : List Byte)
  | msgLoad (s : List Byte)
  | msgBitstr (bits : List Bool)
  | keyBytes (s : List Byte)
  | keyLoad (s : List Byte)
  | round64
  | sha256 (s : List Byte)
  | hmac256 (m k : List Byte)
  deriving DecidableEq, Repr

/-- The number whose binary digits are `bits`, first bit most significant: `0b<chunk>` (R93, R96). -/
def bitsValue (bits : List Bool) : Nat := bits.foldl (fun v x => 2 * v + x.toNat) 0

/-- "for each chunk of up to 8 characters, in order: `msg.bits n, 0b<chunk>`" (R96), at most `fuel` chunks. -/
def bitstrChunks : Nat → List Bool → List Instr
  | 0, _ => []
  | fuel + 1, bits =>
    if bits = [] then []
    else .msgBits (bits.take 8).length (BitVec.ofNat 8 (bitsValue (bits.take 8))) :: bitstrChunks fuel (bits.drop 8)

/-- The commands each pseudo-instruction expands into (R96). -/
def Pseudo.expansion : Pseudo → List Instr
  | .msgBytes s => s.map .msgByte
  | .msgLoad s => .msgClear :: s.map .msgByte
  | .msgBitstr bits => bitstrChunks bits.length bits
  | .keyBytes s => s.map .keyByte
  | .keyLoad s => .keyClear :: s.map .keyByte
  | .round64 => List.replicate 64 .round
  | .sha256 s => (.msgClear :: s.map .msgByte) ++ [.hash]
  | .hmac256 m k => (.msgClear :: m.map .msgByte) ++ (.keyClear :: k.map .keyByte) ++ [.hmac]

/-- Issue command words one after another, each as a host write to `CMD` (R66). -/
def issueAll : List Word → State → Host.Outcome State Fault Refusal
  | [], s => .next s
  | v :: vs, s =>
    match cmdWrite v s with
    | .next t => issueAll vs t
    | .fault x => .fault x
    | .refused x => .refused x

/-- A hexadecimal digit, lower case (R177). -/
def hexDigit (n : Nat) : Char := if n < 10 then Char.ofNat (48 + n) else Char.ofNat (87 + n)

/-- The 8 digits of a word, most significant first (R177). -/
def wordHex (w : Word) : List Char := (List.range 8).reverse.map fun k => hexDigit (w.toNat / 16 ^ k % 16)

/-- The host's hexadecimal form of the digest, the eight groups joined by `sep`: nothing, or a single space with `seperatedBlocks`
(R177). -/
def digestHex (sep : List Char) (dg : Vector Word 8) : List Char := sep.intercalate (dg.toList.map wordHex)

end Sys2Proof.Machine
end

