-- ==== Sys2Proof/Safety.lean ====
section
/-! DEFINITION. The terms claims are stated in: the bits of a buffer (R20), the invariant of a state no run leaves, the opcode map of R88 as
data, and the two relations of the noninterference claims. -/

namespace Sys2Proof.Machine

/-- The bits of a BitBuffer in order of appending: bits 7..0 of each completed byte, then bits `tc - 1` .. 0 of the tail (R20). -/
def BitBuffer.bits (b : BitBuffer) : List Bool :=
  b.data.flatMap (fun y => (List.range 8).reverse.map y.getLsbD) ++ (List.range b.tc.val).reverse.map b.tv.getLsbD

/-- What holds of every state of a run from reset, each part with the rule that says so. -/
structure State.Inv (s : State) : Prop where
  /-- The parameters meet their constraints (R6, R7, R50). -/
  par_ok : s.par.ok = true
  /-- R21 (2) and (3). -/
  msg_ok : s.msg.ok s.par.msgCap = true
  /-- "`KEY` is a byte string of at most `KEY_CAP_BYTES` bytes" (R23). -/
  key_cap : s.key.length ≤ s.par.keyCap
  /-- A valid `PB` is a positive whole number of 64-byte blocks (R24). -/
  pb_blocks : s.pbv = true → 0 < s.pb.length ∧ s.pb.length % 64 = 0
  /-- A valid `PB` has no more blocks than the longest message pads to (R6, R142). DEDUCED (log 20). -/
  pb_fits : s.pbv = true → s.pb.length / 64 ≤ (8 * s.par.msgCap + 64) / 512 + 1
  /-- "`W[16..63]` are the expansion of `W[0..15]`" when `WV = FULL` (R26). -/
  sched_full : s.wv = .full → expand s.w = s.w
  /-- Valid working registers stand beside a valid hash state. DEDUCED (log 20): no single rule says it. -/
  work_hash : s.wkv = true → s.hv = true
  /-- `ERR_CAUSE` and `ERR_CMD` are 0 when `FAULT = 0` (R31). -/
  err_off : s.fault = false → s.errCause = .none ∧ s.errCmd = 0
  /-- `ERR_CAUSE` is an error's code when `FAULT = 1` (R31, R231). -/
  err_on : s.fault = true → s.errCause ≠ .none

/-- The columns match and mask of the opcode map, row by row (R88). -/
def opcodeMap : List (Word × Word) :=
  [(0x00000000, 0xFFFFFFFF), (0x01000000, 0xFFFFFFFF), (0x10000000, 0xFFFFFFFF), (0x11000000, 0xFFFFFF00),
   (0x12000000, 0xFFFFF000), (0x13000000, 0xFFFFFFFF), (0x18000000, 0xFFFFFFFF), (0x19000000, 0xFFFFFF00),
   (0x20000000, 0xFFFFFFFF), (0x21000000, 0xFFFF0000), (0x22000000, 0xFFFFFFFF), (0x23000000, 0xFFFFFFFF),
   (0x24000000, 0xFFFFFFFF), (0x25000000, 0xFFFFFFFF), (0x26000000, 0xFFFF0000), (0x27000000, 0xFFFFFFFF),
   (0x30000000, 0xFFFFFFFF), (0x31000000, 0xFFFFFFFF)]

/-- "A word `v` selects a row when `v and mask = match`" (R88). -/
def selectsRow (v : Word) (row : Word × Word) : Bool := v &&& row.2 == row.1

/-- For a word of format `NB`: `N` lies in 1..8 and `VAL < 2^N` (R84, R86), with `N` and `VAL` as numbers. -/
def nbFieldsLegal (v : Word) : Bool :=
  decide (1 ≤ v.toNat / 256 % 16) && decide (v.toNat / 256 % 16 ≤ 8) &&
    decide (v.toNat % 256 < 2 ^ (v.toNat / 256 % 16))

/-- The two states differ at most in the contents of `KEY`, not in its length (R23: only the length is readable). -/
def SameButKey (s t : State) : Prop :=
  ∃ k : List Byte, k.length = s.key.length ∧ t = { s with key := k }

/-- The two states agree in everything but elements that are not valid in either (R12, R30). -/
structure SameLive (s t : State) : Prop where
  msg : s.msg = t.msg
  key : s.key = t.key
  pbv : s.pbv = t.pbv
  pb : s.pbv = true → s.pb = t.pb
  hv : s.hv = t.hv
  h : s.hv = true → s.h = t.h
  wv : s.wv = t.wv
  w : ∀ i : Fin 64, schedWordValid s i.val = true → s.w[i] = t.w[i]
  wkv : s.wkv = t.wkv
  wk : s.wkv = true → s.wk = t.wk
  rc : s.rc = t.rc
  dv : s.dv = t.dv
  dg : s.dv = true → s.dg = t.dg
  fault : s.fault = t.fault
  errCause : s.errCause = t.errCause
  errCmd : s.errCmd = t.errCmd
  par : s.par = t.par
  hostQ : s.hostQ = t.hostQ
  rdata : s.rdata = t.rdata
  draws : s.draws = t.draws

/-- The command words of `msg.pad`, `h.init`, `compress 0` .. `compress n-1`, `digest` (R172). -/
def hashSequence (n : Nat) : List Word :=
  [0x13000000, 0x20000000] ++ (List.range n).map (fun b => BitVec.ofNat 32 (0x26000000 + b)) ++ [0x27000000]

/-- The command words of `blk.load BLK`, `sched`, `wk.load`, 64 × `round`, `fold` (R173). -/
def blockSequence (blk : BitVec 16) : List Word :=
  [BitVec.ofNat 32 (0x21000000 + blk.toNat), 0x22000000, 0x23000000] ++ List.replicate 64 0x24000000 ++ [0x25000000]

end Sys2Proof.Machine
end

