-- ==== Sys2Proof/Certificates/Slice0/Obligations.lean ====
section
/-! DEFINITION. The statements for the provers. Each docstring names the rule of `spec/` it formalises. -/

open Sys2Proof Sys2Proof.Machine

/-! ### Encoding -/

/-- R94, R86: the decoder reads every word the encoder writes back as the instruction it stands for, every operand at every
value. -/
def Obligations.DecodeOfEncode : Prop :=
  ∀ i : Instr, i.wellFormed = true → decode (encode i) = .ok i

/-- R86: a word that decodes is the word of its instruction, bit for bit, and its operands are legal. -/
def Obligations.EncodeOfDecode : Prop :=
  ∀ (v : Word) (i : Instr), decode v = .ok i → encode i = v ∧ i.wellFormed = true

/-- R88: a word decodes exactly when it selects a row of the opcode map (and, in the row of `msg.bits`, `N` and `VAL` are legal), and no
word selects two rows. -/
def Obligations.OpcodeMapDecides : Prop :=
  (∀ v : Word, (∃ i, decode v = .ok i) ↔
    ∃ row ∈ opcodeMap, selectsRow v row = true ∧ (row.1 = 0x12000000 → nbFieldsLegal v = true)) ∧
  (∀ (v : Word) (row row' : Word × Word), row ∈ opcodeMap → row' ∈ opcodeMap →
    selectsRow v row = true → selectsRow v row' = true → row = row')

/-- R94's examples and R84's limits, written out: words that decode to the command they stand for, and words that do not. -/
def Obligations.WrittenOutWordsDecode : Prop :=
  decode 0x00000000 = .ok .nop ∧ decode 0x11000061 = .ok (.msgByte 0x61) ∧
  decode 0x12000305 = .ok (.msgBits 3 0b101) ∧ decode 0x19000041 = .ok (.keyByte 0x41) ∧
  decode 0x26000001 = .ok (.compress 1) ∧ decode 0x30000000 = .ok .hash ∧ decode 0x31000000 = .ok .hmac ∧
  decode 0x02000000 = .error .reservedOpcode ∧ decode 0x00000001 = .error .reservedBits ∧
  decode 0x12000900 = .error .badCount ∧ decode 0x12000308 = .error .badValue

/-! ### The port: one event a step -/

/-- R51: outside the fault state, a step whose event is a write to `CMD` of a word that decodes is `exec` of its instruction, on the
state without the event. `withFetchWord` puts exactly that event first. -/
def Obligations.StepRunsDecodedCommand : Prop :=
  ∀ (s : State) (v : Word) (i : Instr), s.fault = false → decode v = .ok i →
    (∀ rest, s.hostQ = .write .w32 s.par.base v :: rest → step s = exec i { s with hostQ := rest }) ∧
    step (s.withFetchWord 32 v.toNat) = exec i s

/-- R232, R86: outside the fault state a word that decodes to no command raises `E_ILLEGAL` before any rule of a command. -/
def Obligations.IllegalWordRaises : Prop :=
  ∀ (s : State) (v : Word) (x : DecodeError) (rest : List HostEvent), s.fault = false → decode v = .error x →
    s.hostQ = .write .w32 s.par.base v :: rest →
    step s = .next { s with hostQ := rest, fault := true, errCause := .illegal, errCmd := v }

/-- R241: in the fault state `sreset` runs, every other word is dropped without being decoded, and reads work as usual. How a read of an
element that is not valid draws its free value (R12) is the model's choice (log 4). -/
def Obligations.FaultStateDropsCommands : Prop :=
  ∀ (s : State) (rest : List HostEvent), s.fault = true →
    (∀ v : Word, v ≠ 0x01000000 → s.hostQ = .write .w32 s.par.base v :: rest → step s = .next { s with hostQ := rest }) ∧
    (s.hostQ = .write .w32 s.par.base 0x01000000 :: rest → step s = exec .sreset { s with hostQ := rest }) ∧
    (∀ r : HostReg, s.hostQ = .read .w32 (s.par.base + r.offset) :: rest →
      step s = .next (match readReg r s with
        | some w => { s with hostQ := rest, rdata := w }
        | none => { s with hostQ := rest, rdata := Config.freeWord s.draws, draws := s.draws + 1 }))

/-- R245: the fault state is left by `sreset` and power-on reset only, and both return the whole block to its reset state. -/
def Obligations.FaultStateLeftByResetOnly : Prop :=
  ∀ s t : State, s.fault = true → step s = .next t → t.fault = false →
    ∃ rest, (s.hostQ = .powerOn :: rest ∨ s.hostQ = .write .w32 s.par.base 0x01000000 :: rest) ∧
      t = { State.resetWith s.par with hostQ := rest, rdata := s.rdata, draws := s.draws }

/-- R240: a `CMD` write that ends in the fault state changed nothing but the three error fields: the state before, `FAULT = 1`, an error's
code, and the whole command word. -/
def Obligations.ErrorsArePrecise : Prop :=
  ∀ (s t : State) (v : Word) (rest : List HostEvent), s.fault = false → s.hostQ = .write .w32 s.par.base v :: rest →
    step s = .next t → t.fault = true →
    ∃ c : ErrCode, c ≠ .none ∧ t = { s with hostQ := rest, fault := true, errCause := c, errCmd := v }

/-- R66: each step takes exactly the host's next event, and R255: with none pending the block holds its state. -/
def Obligations.EventsTakeEffectInOrder : Prop :=
  (∀ (s t : State) (e : HostEvent) (rest : List HostEvent), s.hostQ = e :: rest → step s = .next t → t.hostQ = rest) ∧
  (∀ s : State, s.hostQ = [] → step s = .next s)

/-- R32, R58, R59, R261: `ID` reads its constant, `MSG_CAP` reads `MSG_CAP_BYTES` and `KEY_CAP` reads `KEY_CAP_BYTES`; and no event changes
the parameters, so the three read the same before and after every step. -/
def Obligations.ConfigurationNeverChanges : Prop :=
  (∀ s t : State, step s = .next t →
    t.par = s.par ∧ readReg .id t = some 0x53323536 ∧ readReg .msgCap t = readReg .msgCap s ∧
      readReg .keyCap t = readReg .keyCap s) ∧
  (∀ s : State, s.par.ok = true → ∃ m k : Word,
    readReg .msgCap s = some m ∧ m.toNat = s.par.msgCap ∧ readReg .keyCap s = some k ∧ k.toNat = s.par.keyCap)

/-- R65, U4: a read of any mapped register completes and changes nothing of the block; what it leaves is what it returned, the
register's value or (log 4, the model's form of R12) a fresh draw of a free value. A write to any of them but `CMD` is ignored. -/
def Obligations.AccessesHaveNoSideEffect : Prop :=
  ∀ (s : State) (r : HostReg) (rest : List HostEvent),
    (s.hostQ = .read .w32 (s.par.base + r.offset) :: rest →
      (∀ w, readReg r s = some w → step s = .next { s with hostQ := rest, rdata := w }) ∧
      (readReg r s = none →
        step s = .next { s with hostQ := rest, rdata := Config.freeWord s.draws, draws := s.draws + 1 })) ∧
    (∀ v : Word, r ≠ .cmd → s.hostQ = .write .w32 (s.par.base + r.offset) v :: rest →
      step s = .next { s with hostQ := rest })

/-- R60, R65: an access that is not 32 bits wide, not aligned, to a reserved offset, or at or above offset 0x200, has no step. -/
def Obligations.UndefinedAccessesRefused : Prop :=
  ∀ (s : State) (e : HostEvent) (rest : List HostEvent) (width : AccessWidth) (off : Nat),
    s.hostQ = e :: rest → (e = .read width (s.par.base + off) ∨ ∃ v, e = .write width (s.par.base + off) v) →
    (width ≠ .w32 ∨ off % 4 ≠ 0 ∨ (0x030 ≤ off ∧ off ≤ 0x03F) ∨ (0x0A0 ≤ off ∧ off ≤ 0x0FF) ∨ 0x200 ≤ off) →
    ∃ x, step s = .refused x

/-- R50: the register at each offset of the map, and no register at the reserved offsets. -/
def Obligations.RegisterMap : Prop :=
  lowRegs.map HostReg.offset =
    [0x000, 0x004, 0x008, 0x00C, 0x010, 0x014, 0x018, 0x01C, 0x020, 0x024, 0x028, 0x02C] ∧
  (∀ r ∈ lowRegs, regAt r.offset = some r) ∧
  (∀ i : Fin 8, regAt (0x040 + 4 * i.val) = some (.h i) ∧ regAt (0x060 + 4 * i.val) = some (.wk i) ∧
    regAt (0x080 + 4 * i.val) = some (.dg i)) ∧
  (∀ i : Fin 64, regAt (0x100 + 4 * i.val) = some (.w i)) ∧
  (∀ off : Nat, (0x030 ≤ off ∧ off ≤ 0x03F) ∨ (0x0A0 ≤ off ∧ off ≤ 0x0FF) ∨ 0x200 ≤ off → regAt off = none)

/-- R52: the fields of `STATUS` bit by bit. -/
def Obligations.StatusLayout : Prop :=
  ∀ s : State, ∃ v : Word, readReg .status s = some v ∧
    v.getLsbD 0 = s.fault ∧ v.getLsbD 1 = s.pbv ∧ v.getLsbD 2 = s.hv ∧
    v.toNat / 8 % 4 = (match s.wv with | .none => 0 | .lo => 1 | .full => 2) ∧
    v.getLsbD 5 = s.wkv ∧ v.getLsbD 6 = s.dv ∧ v.toNat < 2 ^ 7

/-- R53, R54, R231: `ERR_CAUSE` reads the code of the error, `ERR_CMD` the command word that raised it. -/
def Obligations.ErrorRegisters : Prop :=
  ∀ s : State, readReg .errCmd s = some s.errCmd ∧
    readReg .errCause s = some (match s.errCause with
      | .none => 0 | .illegal => 1 | .msgFull => 2 | .keyFull => 3 | .noPad => 4 | .blkRange => 5 | .uninit => 6
      | .seq => 7 | .keyEmpty => 8 | .msgUnaligned => 9)

/-- R51, R55, R56, R57: `CMD` reads 0; `MSG_LEN_LO` and `MSG_LEN_HI` hold the 64-bit message length in bits; `KEY_LEN`, `RC` and
`NBLK` read the counts they name; all in a state that meets the invariant. -/
def Obligations.CountRegisters : Prop :=
  ∀ s : State, s.Inv → ∃ lo hi k r n : Word, readReg .cmd s = some 0 ∧
    readReg .msgLenLo s = some lo ∧ readReg .msgLenHi s = some hi ∧
    lo.toNat + 2 ^ 32 * hi.toNat = 8 * s.msg.data.length + s.msg.tc.val ∧ hi.toNat ≤ 7 ∧
    lo.toNat % 8 = s.msg.tc.val ∧
    readReg .keyLen s = some k ∧ k.toNat = s.key.length ∧ readReg .rc s = some r ∧ r.toNat = s.rc.val ∧
    readReg .nblk s = some n ∧ n.toNat = (if s.pbv = true then s.pb.length / 64 else 0)

/-- R61, R62, R63: the files read as their words where they are valid and are unspecified otherwise. -/
def Obligations.FileReads : Prop :=
  ∀ s : State,
    (∀ i : Fin 8, readReg (.h i) s = (if s.hv = true then some s.h[i] else none) ∧
      readReg (.wk i) s = (if s.wkv = true then some s.wk[i] else none) ∧
      readReg (.dg i) s = (if s.dv = true then some s.dg[i] else none)) ∧
    (∀ i : Fin 64, readReg (.w i) s =
      (if s.wv = .none ∨ (s.wv = .lo ∧ 16 ≤ i.val) then none else some s.w[i]))

/-! ### Reset -/

/-- R37, R260, R262: what a reset leaves, by `sreset`, by the reset input and in `State.reset`, as far as the spec gives it: what R37 leaves
unspecified is not valid, and a read of it is free. -/
def Obligations.ResetState : Prop :=
  ∀ s t : State, exec .sreset s = .next t ∨ (∃ rest, s.hostQ = .powerOn :: rest ∧ step s = .next t) ∨ t = State.reset →
    t.msg.data = [] ∧ t.msg.tv = 0 ∧ t.msg.tc = 0 ∧ t.key = [] ∧
    t.pbv = false ∧ t.hv = false ∧ t.wv = .none ∧ t.wkv = false ∧ t.rc = 0 ∧ t.dv = false ∧ t.fault = false ∧
    t.errCause = .none ∧ t.errCmd = 0 ∧
    (∀ r ∈ [HostReg.status, .errCause, .errCmd, .msgLenLo, .msgLenHi, .keyLen, .rc, .nblk], readReg r t = some 0) ∧
    (∀ i : Fin 8, readReg (.h i) t = none ∧ readReg (.wk i) t = none ∧ readReg (.dg i) t = none) ∧
    (∀ i : Fin 64, readReg (.w i) t = none)

/-- R221, R260: `sreset` and the reset input put every state element of the block to its reset value, from every state, and are the same
in effect; the host's side of the port stays (log 21). Where R37 gives no value, `State.resetWith` holds the model's (log 5, DESIGN
CHOICE). -/
def Obligations.SresetEqualsPowerOn : Prop :=
  ∀ s : State,
    exec .sreset s = .next { State.resetWith s.par with hostQ := s.hostQ, rdata := s.rdata, draws := s.draws } ∧
    (∀ rest, s.hostQ = .powerOn :: rest → step s = exec .sreset { s with hostQ := rest })

/-- The invariant holds after reset, whatever the parameters are. -/
def Obligations.ResetMeetsInv : Prop :=
  State.reset.Inv ∧ ∀ p : Params, p.ok = true → (State.resetWith p).Inv

/-- R21's "Every command preserves the three invariants", and the other parts of `State.Inv` with it (two of them DEDUCED, log 20); so does
every event. -/
def Obligations.StepKeepsInv : Prop :=
  ∀ s t : State, s.Inv → step s = .next t → t.Inv

/-- From a state that meets the invariant nothing is stuck: a step that is not refused answers a next state, so U16's stuck state is
unreachable. -/
def Obligations.InvStatesAreNeverStuck : Prop :=
  ∀ s : State, s.Inv → ∀ x : Fault, step s ≠ .fault x

/-! ### `nop`, message and key buffers -/

/-- R220, R134, R137: `nop` changes nothing, the two clearing commands empty their buffer and change nothing else. -/
def Obligations.NopAndClearsComplete : Prop :=
  ∀ s : State, s.fault = false →
    exec .nop s = .next s ∧
    exec .msgClear s = .next { s with msg := { data := [], tv := 0, tc := 0 } } ∧
    exec .keyClear s = .next { s with key := [] }

/-- R135: a byte that fits is appended; with `t` bits in the tail it straddles: its top `8 - t` bits complete the tail and its low `t`
bits are the new tail. -/
def Obligations.MsgByteAppends : Prop :=
  ∀ (s : State) (b : Byte), s.fault = false → s.msg.tv.toNat < 2 ^ s.msg.tc.val →
    8 * s.msg.data.length + s.msg.tc.val + 8 ≤ 8 * s.par.msgCap →
    exec (.msgByte b) s = .next { s with msg :=
      { data := s.msg.data ++ [BitVec.ofNat 8 (s.msg.tv.toNat * 2 ^ (8 - s.msg.tc.val) + b.toNat / 2 ^ s.msg.tc.val)]
        tv := BitVec.ofNat 8 (b.toNat % 2 ^ s.msg.tc.val)
        tc := s.msg.tc } }

/-- R136, R20: `msg.bits N, VAL` that fits appends `VAL[N-1] .. VAL[0]` to the bits of `MSG`, leaves a clean tail, and changes nothing
else; `msg.bits 8, v` is `msg.byte v`. -/
def Obligations.MsgBitsAppends : Prop :=
  ∀ (s : State) (n : Nat) (val : Byte), s.fault = false → s.msg.tv.toNat < 2 ^ s.msg.tc.val → 1 ≤ n → n ≤ 8 →
    val.toNat < 2 ^ n → 8 * s.msg.data.length + s.msg.tc.val + n ≤ 8 * s.par.msgCap →
    ∃ m : BitBuffer, exec (.msgBits n val) s = .next { s with msg := m } ∧
      m.bits = s.msg.bits ++ (List.range n).reverse.map val.getLsbD ∧ m.tv.toNat < 2 ^ m.tc.val ∧
      (n = 8 → exec (.msgByte val) s = .next { s with msg := m })

/-- R233: bits that do not fit are not appended at all; `E_MSG_FULL` is raised and nothing else changes. -/
def Obligations.MsgFullRaises : Prop :=
  ∀ s : State, s.fault = false →
    (∀ b : Byte, 8 * s.par.msgCap < 8 * s.msg.data.length + s.msg.tc.val + 8 →
      exec (.msgByte b) s =
        .next { s with fault := true, errCause := .msgFull, errCmd := BitVec.ofNat 32 (0x11000000 + b.toNat) }) ∧
    (∀ (n : Nat) (val : Byte), 1 ≤ n → n ≤ 8 → val.toNat < 2 ^ n →
      8 * s.par.msgCap < 8 * s.msg.data.length + s.msg.tc.val + n →
      exec (.msgBits n val) s = .next
        { s with fault := true, errCause := .msgFull, errCmd := BitVec.ofNat 32 (0x12000000 + 256 * n + val.toNat) })

/-- R138, R234: a key byte is appended while the key is not full; in a full key `E_KEY_FULL` is raised. -/
def Obligations.KeyByteAppendsOrRaises : Prop :=
  ∀ (s : State) (b : Byte), s.fault = false →
    (s.key.length < s.par.keyCap → exec (.keyByte b) s = .next { s with key := s.key ++ [b] }) ∧
    (s.key.length = s.par.keyCap → exec (.keyByte b) s = .next
      { s with fault := true, errCause := .keyFull, errCmd := BitVec.ofNat 32 (0x19000000 + b.toNat) })

/-- R142: the padding in bits: the message, one 1 bit, `k = (447 - L) mod 512` zero bits, the 64 bits of the length, high bit first; and
the block count, with its steps. -/
def Obligations.PadBitLayout : Prop :=
  ∀ m : BitBuffer,
    (BitBuffer.ofBytes (pad m)).bits = m.bits ++ [true] ++
      List.replicate ((447 - (m.lenBits : ℤ)) % 512).toNat false ++
      (List.range 64).reverse.map m.lenBits.testBit ∧
    (pad m).length = 64 * ((m.lenBits + 64) / 512 + 1) ∧
    (m.lenBits ≤ 447 → (pad m).length = 64) ∧
    (448 ≤ m.lenBits → m.lenBits ≤ 959 → (pad m).length = 128)

/-- R144, last sentence: the padded message of whole bytes as a byte string. -/
def Obligations.PadOfWholeBytes : Prop :=
  ∀ s : List Byte,
    pad (BitBuffer.ofBytes s) = s ++ [0x80] ++
      List.replicate ((((447 - 8 * (s.length : ℤ)) % 512).toNat - 7) / 8) 0 ++
      (List.range 8).reverse.map (fun j => BitVec.ofNat 8 (8 * s.length / 256 ^ j))

/-- R141, U16: `msg.pad` stores the padded copy and changes nothing else, `MSG` included; a buffer that breaks R21 has no padding. -/
def Obligations.MsgPadStoresPaddedCopy : Prop :=
  ∀ s : State, s.fault = false →
    (s.msg.ok s.par.msgCap = true → exec .msgPad s = .next { s with pb := pad s.msg, pbv := true }) ∧
    (s.msg.ok s.par.msgCap = false → exec .msgPad s = .fault .stuck)

/-- R130: none of the six buffer commands reads or writes `H`, `W`, `WK`, `RC` or `DG`: with other values in them (and in their valid
bits) the command does the same to the rest and leaves them as they were. -/
def Obligations.BufferCommandsIgnoreTheFiles : Prop :=
  ∀ (i : Instr) (s t : State) (h : Vector Word 8) (w : Vector Word 64) (wk dg : Vector Word 8) (hv wkv dv : Bool)
    (wv : SchedValid) (rc : Fin 65),
    i ∈ [.msgClear, .msgPad, .keyClear] ∨ (∃ b, i = .msgByte b ∨ i = .keyByte b) ∨ (∃ n val, i = .msgBits n val) →
    exec i s = .next t →
    exec i { s with h := h, hv := hv, w := w, wv := wv, wk := wk, wkv := wkv, rc := rc, dg := dg, dv := dv } =
      .next { t with h := h, hv := hv, w := w, wv := wv, wk := wk, wkv := wkv, rc := rc, dg := dg, dv := dv } ∧
    (t.h = s.h ∧ t.hv = s.hv ∧ t.w = s.w ∧ t.wv = s.wv ∧ t.wk = s.wk ∧ t.wkv = s.wkv ∧ t.rc = s.rc ∧ t.dg = s.dg ∧
      t.dv = s.dv)

/-- R148, R96: `msg.load` of a byte string that fits leaves exactly these bytes, no tail, and nothing else changed; `msg.bitstr` of a bit
string that fits appends exactly its bits. -/
def Obligations.HostLoadsBuildTheMessage : Prop :=
  ∀ s : State, s.fault = false →
    (∀ bytes : List Byte, bytes.length ≤ s.par.msgCap →
      issueAll ((Pseudo.msgLoad bytes).expansion.map encode) s =
        .next { s with msg := { data := bytes, tv := 0, tc := 0 } }) ∧
    (∀ bits : List Bool, 8 * s.msg.data.length + s.msg.tc.val + bits.length ≤ 8 * s.par.msgCap →
      ∃ m : BitBuffer, issueAll ((Pseudo.msgBitstr bits).expansion.map encode) s = .next { s with msg := m } ∧
        m.bits = s.msg.bits ++ bits)

/-! ### Word operations and tables -/

/-- R102, R103, R104, R106, R107: the word functions bit by bit or as numbers. -/
def Obligations.WordFunctions : Prop :=
  (∀ (x : Word) (n i : Nat), 1 ≤ n → n ≤ 31 → i < 32 → (rotr x n).getLsbD i = x.getLsbD ((i + n) % 32)) ∧
  (∀ (x : Word) (n : Nat), (shr x n).toNat = x.toNat / 2 ^ n) ∧
  (∀ x : Word, (not32 x).toNat = 0xFFFFFFFF - x.toNat) ∧
  (∀ (e f g : Word) (i : Nat), i < 32 → (ch e f g).getLsbD i = if e.getLsbD i then f.getLsbD i else g.getLsbD i) ∧
  (∀ (a b c : Word) (i : Nat), i < 32 →
    (maj a b c).getLsbD i = decide (2 ≤ (a.getLsbD i).toNat + (b.getLsbD i).toNat + (c.getLsbD i).toNat))

/-- R108 to R111, with the bit forms of R102 and R103: each bit of the four sigma functions as an exclusive or of three bits of the
operand (two near the top of a shift). -/
def Obligations.SigmaFunctions : Prop :=
  ∀ (x : Word) (i : Nat), i < 32 →
    (bigSigma0 x).getLsbD i =
      ((x.getLsbD ((i + 2) % 32) ^^ x.getLsbD ((i + 13) % 32)) ^^ x.getLsbD ((i + 22) % 32)) ∧
    (bigSigma1 x).getLsbD i =
      ((x.getLsbD ((i + 6) % 32) ^^ x.getLsbD ((i + 11) % 32)) ^^ x.getLsbD ((i + 25) % 32)) ∧
    (smallSigma0 x).getLsbD i =
      ((x.getLsbD ((i + 7) % 32) ^^ x.getLsbD ((i + 18) % 32)) ^^ (decide (i + 3 < 32) && x.getLsbD (i + 3))) ∧
    (smallSigma1 x).getLsbD i =
      ((x.getLsbD ((i + 17) % 32) ^^ x.getLsbD ((i + 19) % 32)) ^^ (decide (i + 10 < 32) && x.getLsbD (i + 10)))

/-- R112, R113: `IV[i]` is the first 32 bits of the fractional part of the square root of the `(i+1)`-th prime, `K[t]` of the cube root of
the `(t+1)`-th prime: the facts of FIPS 180 behind the words the spec supplies from general knowledge (log 11, PRESUMED). -/
def Obligations.ConstantTables : Prop :=
  (∀ i : Fin 8, ∃ r : Nat,
    let p := [2, 3, 5, 7, 11, 13, 17, 19].getD i.val 0
    r ^ 2 ≤ p * 2 ^ 64 ∧ p * 2 ^ 64 < (r + 1) ^ 2 ∧ iv[i] = BitVec.ofNat 32 r) ∧
  (∀ t : Fin 64, ∃ r : Nat,
    let p := ((List.range 312).filter Nat.Prime).getD t.val 0
    r ^ 3 ≤ p * 2 ^ 96 ∧ p * 2 ^ 96 < (r + 1) ^ 3 ∧ roundK t.val = BitVec.ofNat 32 r)

/-! ### SHA-256 commands -/

/-- R161, R164, R168: `h.init` loads the IV (log 11) into `H`, `wk.load` copies `H` into the working registers and restarts the round counter,
`digest` copies `H` to `DG`; nothing else changes. -/
def Obligations.HashStateMoves : Prop :=
  ∀ s : State, s.fault = false →
    exec .hInit s = .next { s with
      h := #v[0x6A09E667, 0xBB67AE85, 0x3C6EF372, 0xA54FF53A, 0x510E527F, 0x9B05688C, 0x1F83D9AB, 0x5BE0CD19]
      hv := true } ∧
    (s.hv = true → exec .wkLoad s = .next { s with wk := s.h, wkv := true, rc := 0 }) ∧
    (s.hv = true → exec .digest s = .next { s with dg := s.h, dv := true })

/-- R162, R147: `blk.load` of a block in range groups its bytes big-endian into `W[0..15]`; `W[16..63]` become unspecified; nothing else
changes. -/
def Obligations.BlkLoadGroupsBlock : Prop :=
  ∀ (s : State) (blk : BitVec 16), s.fault = false → s.pbv = true → blk.toNat < s.pb.length / 64 →
    ∃ t : State, exec (.blkLoad blk) s = .next t ∧ t = { s with w := t.w, wv := .lo } ∧
      (∀ i : Fin 64, i.val < 16 → ∃ v : Word, readReg (.w i) t = some v ∧ v.toNat =
        (s.pb.getD (64 * blk.toNat + 4 * i.val) 0).toNat * 2 ^ 24 +
        (s.pb.getD (64 * blk.toNat + 4 * i.val + 1) 0).toNat * 2 ^ 16 +
        (s.pb.getD (64 * blk.toNat + 4 * i.val + 2) 0).toNat * 2 ^ 8 +
        (s.pb.getD (64 * blk.toNat + 4 * i.val + 3) 0).toNat) ∧
      (∀ i : Fin 64, 16 ≤ i.val → readReg (.w i) t = none)

/-- R163: `sched` keeps `W[0..15]`, fills `W[16..63]` by DOC0's recurrence over the new words, and changes nothing else; a second `sched`
writes the same values. -/
def Obligations.SchedExpands : Prop :=
  ∀ s : State, s.fault = false → s.wv ≠ .none →
    ∃ w : Vector Word 64, exec .sched s = .next { s with w := w, wv := .full } ∧
      (∀ i : Fin 64, i.val < 16 → w[i] = s.w[i]) ∧
      (∀ i : Fin 64, 16 ≤ i.val → w[i] = w.getD (i.val - 16) 0 +
        (rotr (w.getD (i.val - 15) 0) 7 ^^^ rotr (w.getD (i.val - 15) 0) 18 ^^^ shr (w.getD (i.val - 15) 0) 3) +
        w.getD (i.val - 7) 0 +
        (rotr (w.getD (i.val - 2) 0) 17 ^^^ rotr (w.getD (i.val - 2) 0) 19 ^^^ shr (w.getD (i.val - 2) 0) 10)) ∧
      exec .sched { s with w := w, wv := .full } = .next { s with w := w, wv := .full }

/-- R165, R175: one round, in the letters of DOC0, all right-hand sides reading the old registers. -/
def Obligations.RoundComputes : Prop :=
  ∀ (s : State) (a b c d e f g h : Word), s.fault = false → s.wkv = true → s.wv = .full → s.rc.val < 64 →
    s.wk = #v[a, b, c, d, e, f, g, h] →
    ∃ temp1 temp2 : Word,
      temp1 = h + (rotr e 6 ^^^ rotr e 11 ^^^ rotr e 25) + ((e &&& f) ^^^ (~~~e &&& g)) + roundK s.rc.val +
        s.w.getD s.rc.val 0 ∧
      temp2 = (rotr a 2 ^^^ rotr a 13 ^^^ rotr a 22) + ((a &&& b) ^^^ (a &&& c) ^^^ (b &&& c)) ∧
      ∃ t : State, exec .round s = .next t ∧ t.rc.val = s.rc.val + 1 ∧
        t = { s with wk := #v[temp1 + temp2, a, b, c, d + temp1, e, f, g], rc := t.rc }

/-- R166: `fold` after 64 rounds adds word by word into `H`; `WK` become unspecified; nothing else changes. That the dead words of `WK`
stay in State as they were is the model's choice (log 6). -/
def Obligations.FoldAdds : Prop :=
  ∀ s : State, s.fault = false → s.wkv = true → s.hv = true → s.rc.val = 64 →
    ∃ h : Vector Word 8, exec .fold s = .next { s with h := h, wkv := false } ∧
      (∀ i : Fin 8, h[i] = s.h[i] + s.wk[i]) ∧
      (∀ i : Fin 8, readReg (.wk i) { s with h := h, wkv := false } = none)

/-- R167: `compress` folds the compression of the block (R160) into `H` and leaves the block's schedule in `W`, whatever `W`, `WK` and
`RC` were; `WK` become unspecified; the buffers, the digest and the error fields do not change. -/
def Obligations.CompressComputes : Prop :=
  ∀ (s : State) (blk : BitVec 16), s.fault = false → s.pbv = true → blk.toNat < s.pb.length / 64 → s.hv = true →
    ∃ t : State, exec (.compress blk) s = .next t ∧
      t = { s with h := compressBlock s.h (blockWords s.pb blk.toNat)
                   w := expand (loadLow (Vector.replicate 64 0) (blockWords s.pb blk.toNat))
                   wv := .full, wk := t.wk, wkv := false, rc := 64 }

/-- R173: `compress BLK`, when it raises no error, reaches the same state as the step commands. That the equality also covers the dead
words of `WK` is the model's (log 6). -/
def Obligations.CompressEqualsSteps : Prop :=
  ∀ (s : State) (blk : BitVec 16), s.fault = false → s.pbv = true → blk.toNat < s.pb.length / 64 → s.hv = true →
    ∃ t : State, cmdWrite (BitVec.ofNat 32 (0x26000000 + blk.toNat)) s = .next t ∧
      issueAll (blockSequence blk) s = .next t

/-- R176, R169, U16: `hash` leaves the SHA-256 (tables of log 11) of `MSG` in `DG` and in `H`, the padded message in `PB`, the schedule of
the last block in `W`, the status and `RC` the rule names, and changes nothing else but the words of `WK`, which become unspecified. On
a buffer that breaks R21 it is stuck, as `msg.pad` is (log 8). -/
def Obligations.HashComputesSha256 : Prop :=
  ∀ s : State, s.fault = false →
    (s.msg.ok s.par.msgCap = true →
      ∃ t : State, exec .hash s = .next t ∧
        t = { s with pb := pad s.msg, pbv := true, h := sha256 s.msg, hv := true
                     w := expand (loadLow (Vector.replicate 64 0)
                       (blockWords (pad s.msg) ((pad s.msg).length / 64 - 1)))
                     wv := .full, wk := t.wk, wkv := false, rc := 64, dg := sha256 s.msg, dv := true }) ∧
    (s.msg.ok s.par.msgCap = false → exec .hash s = .fault .stuck)

/-- R172: `hash` and the sequence `msg.pad`, `h.init`, `compress 0` .. `compress NBLK-1`, `digest` reach the same state, for every
message whose block indexes fit the 16 bits of `BLK` (R85). That the equality also covers the dead words of `WK` is the model's
(log 6). -/
def Obligations.HashEqualsSequence : Prop :=
  ∀ s : State, s.fault = false → s.msg.ok s.par.msgCap = true → (pad s.msg).length / 64 ≤ 65536 →
    ∃ t : State, cmdWrite 0x30000000 s = .next t ∧ issueAll (hashSequence ((pad s.msg).length / 64)) s = .next t

/-- R171, R206: the digest `hash` writes depends on `MSG` alone, the one `hmac` writes on `MSG` and `KEY` alone. -/
def Obligations.ResultsDependOnBuffersOnly : Prop :=
  ∀ s s' t t' : State, s.fault = false → s'.fault = false → s.msg = s'.msg →
    (exec .hash s = .next t → exec .hash s' = .next t' → t.dg = t'.dg) ∧
    (s.key = s'.key → exec .hmac s = .next t → exec .hmac s' = .next t' → t.dv = true → t.fault = false →
      t'.dv = true ∧ t'.fault = false ∧ t.dg = t'.dg)

/-- R146: the byte form of a digest has 32 bytes, byte `4i + j` being byte `j` of word `i`, most significant first; grouping is its
inverse. -/
def Obligations.DigestByteOrder : Prop :=
  ∀ d : Vector Word 8, (digestBytes d).length = 32 ∧ digestWords (digestBytes d) = d ∧
    (∀ (i : Fin 8) (j : Fin 4),
      ((digestBytes d).getD (4 * i.val + j.val) 0).toNat = d[i].toNat / 256 ^ (3 - j.val) % 256) ∧
    (∀ (w : Word) (j : Fin 4), ((bytesBE w).getD j.val 0).toNat = w.toNat / 256 ^ (3 - j.val) % 256)

/-! ### Errors of the SHA-256 commands -/

/-- R235, R236: `blk.load` and `compress` without a padded message, or with a block index out of range. -/
def Obligations.BlockErrors : Prop :=
  ∀ (s : State) (blk : BitVec 16), s.fault = false →
    (s.pbv = false →
      exec (.blkLoad blk) s = .next
        { s with fault := true, errCause := .noPad, errCmd := BitVec.ofNat 32 (0x21000000 + blk.toNat) } ∧
      exec (.compress blk) s = .next
        { s with fault := true, errCause := .noPad, errCmd := BitVec.ofNat 32 (0x26000000 + blk.toNat) }) ∧
    (s.pbv = true → s.pb.length / 64 ≤ blk.toNat →
      exec (.blkLoad blk) s = .next
        { s with fault := true, errCause := .blkRange, errCmd := BitVec.ofNat 32 (0x21000000 + blk.toNat) } ∧
      exec (.compress blk) s = .next
        { s with fault := true, errCause := .blkRange, errCmd := BitVec.ofNat 32 (0x26000000 + blk.toNat) })

/-- R237: every command with an operand that is not valid raises `E_UNINIT` and writes nothing else. -/
def Obligations.UninitErrors : Prop :=
  ∀ s : State, s.fault = false →
    (s.wv = .none →
      exec .sched s = .next { s with fault := true, errCause := .uninit, errCmd := 0x22000000 }) ∧
    (s.hv = false →
      exec .wkLoad s = .next { s with fault := true, errCause := .uninit, errCmd := 0x23000000 } ∧
      exec .digest s = .next { s with fault := true, errCause := .uninit, errCmd := 0x27000000 }) ∧
    (s.wkv = false ∨ s.wv ≠ .full →
      exec .round s = .next { s with fault := true, errCause := .uninit, errCmd := 0x24000000 }) ∧
    (s.wkv = false ∨ s.hv = false →
      exec .fold s = .next { s with fault := true, errCause := .uninit, errCmd := 0x25000000 }) ∧
    (∀ blk : BitVec 16, s.pbv = true → blk.toNat < s.pb.length / 64 → s.hv = false →
      exec (.compress blk) s = .next
        { s with fault := true, errCause := .uninit, errCmd := BitVec.ofNat 32 (0x26000000 + blk.toNat) })

/-- R238: a 65th round, and a fold before 64 rounds are done, raise `E_SEQ`. -/
def Obligations.SequenceErrors : Prop :=
  ∀ s : State, s.fault = false → s.wkv = true →
    (s.wv = .full → s.rc.val = 64 →
      exec .round s = .next { s with fault := true, errCause := .seq, errCmd := 0x24000000 }) ∧
    (s.hv = true → s.rc.val ≠ 64 →
      exec .fold s = .next { s with fault := true, errCause := .seq, errCmd := 0x25000000 })

/-- R231: which commands raise which error: the column "raised by" of the table, over all instructions. -/
def Obligations.ErrorsComeFromTheirCommands : Prop :=
  ∀ (i : Instr) (s t : State), s.fault = false → exec i s = .next t → t.fault = true →
    (t.errCause = .msgFull ∧ ((∃ b, i = .msgByte b) ∨ ∃ n val, i = .msgBits n val)) ∨
    (t.errCause = .keyFull ∧ ∃ b, i = .keyByte b) ∨
    ((t.errCause = .noPad ∨ t.errCause = .blkRange) ∧ ∃ blk, i = .blkLoad blk ∨ i = .compress blk) ∨
    (t.errCause = .uninit ∧
      (i = .sched ∨ i = .wkLoad ∨ i = .round ∨ i = .fold ∨ (∃ blk, i = .compress blk) ∨ i = .digest)) ∨
    (t.errCause = .seq ∧ (i = .round ∨ i = .fold)) ∨
    ((t.errCause = .keyEmpty ∨ t.errCause = .msgUnaligned) ∧ i = .hmac)

/-! ### HMAC -/

/-- R205, R204: `hmac` of a message of whole bytes under a key that is not empty: the digest bytes are `hmac_fn(key, msg_data)`; `PB`,
`H`, `W` and `WK` become unspecified and `RC` 0; nothing else changes. That the dead words of `PB`, `H`, `W` and `WK` stay in State as
they were is the model's choice (log 6). -/
def Obligations.HmacComputes : Prop :=
  ∀ s : State, s.fault = false → s.key ≠ [] → s.msg.tc = 0 →
    ∃ t : State, exec .hmac s = .next t ∧
      t = { s with dg := t.dg, dv := true, pbv := false, hv := false, wv := .none, wkv := false, rc := 0 } ∧
      digestBytes t.dg = hmacFn s.key s.msg.data ∧
      (∀ i : Fin 8, readReg (.h i) t = none ∧ readReg (.wk i) t = none) ∧ (∀ i : Fin 64, readReg (.w i) t = none) ∧
      readReg .nblk t = some 0

/-- R204, R205: `hmac_fn` written out for a key of at most 64 bytes; keys that differ by a trailing zero byte give the same result; a key of
more than 64 bytes gives the result of its 32-byte hash used as the key (R201). -/
def Obligations.HmacFunction : Prop :=
  (∀ k m : List Byte, k.length ≤ 64 →
    hmacFn k m =
      sha256Bytes ((k ++ List.replicate (64 - k.length) 0).map (· ^^^ 0x5C) ++
        sha256Bytes ((k ++ List.replicate (64 - k.length) 0).map (· ^^^ 0x36) ++ m))) ∧
  (∀ k m : List Byte, k.length < 64 → hmacFn (k ++ [0]) m = hmacFn k m) ∧
  (∀ k m : List Byte, 64 < k.length → hmacFn k m = hmacFn (sha256Bytes k) m)

/-- R239, R244, R242: `hmac` with an empty key raises `E_KEY_EMPTY` whatever the message; with a key and a partial byte in `MSG` it raises
`E_MSG_UNALIGNED`; `DG` and `DV` do not change. -/
def Obligations.HmacErrors : Prop :=
  ∀ s : State, s.fault = false →
    (s.key = [] → exec .hmac s = .next { s with fault := true, errCause := .keyEmpty, errCmd := 0x31000000 }) ∧
    (s.key ≠ [] → s.msg.tc ≠ 0 →
      exec .hmac s = .next { s with fault := true, errCause := .msgUnaligned, errCmd := 0x31000000 })

/-- R264, R96: the whole call, over every byte string that fits: loading a message and `hash` leaves its SHA-256 in `DG`, loading a message
and a key and `hmac` leaves its HMAC. -/
def Obligations.WholeCallsCompute : Prop :=
  ∀ (s : State) (m : List Byte), s.fault = false → m.length ≤ s.par.msgCap →
    (∃ t : State, issueAll ((Pseudo.sha256 m).expansion.map encode) s = .next t ∧ t.fault = false ∧ t.dv = true ∧
      t.dg = sha256 (BitBuffer.ofBytes m)) ∧
    (∀ k : List Byte, k ≠ [] → k.length ≤ s.par.keyCap →
      ∃ t : State, issueAll ((Pseudo.hmac256 m k).expansion.map encode) s = .next t ∧ t.fault = false ∧ t.dv = true ∧
        digestBytes t.dg = hmacFn k m)

/-! ### Rules over the whole machine -/

/-- R22, R23: `MSG` and `KEY` are written by their own commands and `sreset` only. -/
def Obligations.BuffersWrittenByTheirCommandsOnly : Prop :=
  ∀ (i : Instr) (s t : State), exec i s = .next t →
    (t.msg = s.msg ∨ i = .msgClear ∨ (∃ b, i = .msgByte b) ∨ (∃ n val, i = .msgBits n val) ∨ i = .sreset) ∧
    (t.key = s.key ∨ i = .keyClear ∨ (∃ b, i = .keyByte b) ∨ i = .sreset)

/-- R24 to R29: the padded buffer, the register files with their valid bits, and the round counter, are written by the commands their rules
list only. -/
def Obligations.FilesWrittenByTheirCommandsOnly : Prop :=
  ∀ (i : Instr) (s t : State), exec i s = .next t →
    ((t.pb = s.pb ∧ t.pbv = s.pbv) ∨ i ∈ [.msgPad, .hash, .hmac, .sreset]) ∧
    ((t.h = s.h ∧ t.hv = s.hv) ∨ i ∈ [.hInit, .fold, .hash, .hmac, .sreset] ∨ ∃ blk, i = .compress blk) ∧
    ((t.w = s.w ∧ t.wv = s.wv) ∨ i ∈ [.sched, .hash, .hmac, .sreset] ∨ ∃ blk, i = .blkLoad blk ∨ i = .compress blk) ∧
    ((t.wk = s.wk ∧ t.wkv = s.wkv) ∨ i ∈ [.wkLoad, .round, .fold, .hash, .hmac, .sreset] ∨
      ∃ blk, i = .compress blk) ∧
    ((t.dg = s.dg ∧ t.dv = s.dv) ∨ i ∈ [.digest, .hash, .hmac, .sreset]) ∧
    (t.rc = s.rc ∨ i ∈ [.wkLoad, .round, .hash, .hmac, .sreset] ∨ ∃ blk, i = .compress blk)

/-- R23, R64, R250 (`KEY` is not readable, and read by `hmac` only; its confidentiality rests on that): two states that differ only in the
contents of the key stay so under every event but the `hmac` command, and every read returns the same in both. A read of an element
that is not valid returns the same in both because the model's free draw depends on the count of draws alone (log 4). -/
def Obligations.KeyContentsStaySecret : Prop :=
  ∀ (s s' t : State) (e : HostEvent) (rest : List HostEvent), SameButKey s s' → s.hostQ = e :: rest →
    e ≠ .write .w32 s.par.base 0x31000000 → step s = .next t →
    ∃ t' : State, step s' = .next t' ∧ SameButKey t t'

/-- R12: no command consumes an element that is not valid and no read returns one: two states that differ only in such elements take the
same steps, to states that differ only in such elements. A read of such an element leaves the same free draw in both, because the
model's draw depends on the count of draws alone (log 4). -/
def Obligations.InvalidElementsAreNeverConsumed : Prop :=
  ∀ s s' t : State, SameLive s s' → step s = .next t → ∃ t' : State, step s' = .next t' ∧ SameLive t t'
end

