-- ==== Sys2Proof/Laws/Buffer.lean ====
section
/-! SUPPORT. BitBuffer: what appending does to the bits, the length and the tail of a buffer, and what `pad` is. -/

namespace Sys2Proof.Machine

@[simp] theorem bitsDown_length (n v : Nat) : (bitsDown n v).length = n := by simp [bitsDown]

theorem bitsDown_succ (n v : Nat) : bitsDown (n + 1) v = v.testBit n :: bitsDown n v := by
  simp [bitsDown, List.range_succ]

/-- The low bits of `2 * v + x` are those of `v` followed by `x`. -/
theorem bitsDown_double_add (n v : Nat) (x : Bool) : bitsDown (n + 1) (v * 2 + x.toNat) = bitsDown n v ++ [x] := by
  induction n with
  | zero => cases x <;> simp [bitsDown]
  | succ n ih =>
    rw [bitsDown_succ, ih, bitsDown_succ, List.cons_append]
    congr 1
    rw [Nat.testBit_succ]
    congr 1
    cases x <;> simp
    omega

/-- Only the low `n` bits count. -/
theorem bitsDown_mod (n m v : Nat) (h : n ≤ m) : bitsDown n (v % 2 ^ m) = bitsDown n v := by
  induction n with
  | zero => rfl
  | succ n ih => rw [bitsDown_succ, bitsDown_succ, ih (by omega), Nat.testBit_mod_two_pow]; simp; omega

theorem bitsDown_inj (n a b : Nat) (ha : a < 2 ^ n) (hb : b < 2 ^ n) (h : bitsDown n a = bitsDown n b) : a = b := by
  induction n generalizing a b with
  | zero => simp at ha hb; omega
  | succ n ih =>
    have split : ∀ c : Nat, c = c / 2 * 2 + (c.testBit 0).toNat := by
      intro c
      rw [Nat.testBit_zero]
      rcases Nat.mod_two_eq_zero_or_one c with h0 | h0 <;> simp [h0] <;> omega
    have e1 := split a
    have e2 := split b
    rw [e1, e2, bitsDown_double_add, bitsDown_double_add] at h
    have h1 := List.append_inj' h rfl
    have := ih (a / 2) (b / 2) (by omega) (by omega) h1.1
    have h2 : a.testBit 0 = b.testBit 0 := by simpa using h1.2
    rw [e1, e2, this, h2]

/-- `BitBuffer.bits` through `bitsDown`. -/
theorem BitBuffer.bits_eq (b : BitBuffer) :
    b.bits = b.data.flatMap (fun y => bitsDown 8 y.toNat) ++ bitsDown b.tc.val b.tv.toNat := rfl

theorem appendBit_bits (b : BitBuffer) (x : Bool) : (appendBit b x).bits = b.bits ++ [x] := by
  obtain ⟨d, tv, tc⟩ := b
  have hv : (tv * 2 + if x then 1 else 0 : Byte).toNat = (tv.toNat * 2 + x.toNat) % 2 ^ 8 := by
    cases x <;> simp [BitVec.toNat_add, BitVec.toNat_mul]
  unfold appendBit
  by_cases h : tc.val + 1 = 8
  · simp only [h, if_true, BitBuffer.bits_eq, List.flatMap_append, List.flatMap_cons, List.flatMap_nil, hv]
    have : tc.val = 7 := by omega
    rw [bitsDown_mod _ _ _ (le_refl _), bitsDown_double_add, this]
    simp [bitsDown]
  · simp only [h, if_false, BitBuffer.bits_eq, hv]
    have : (tc + 1).val = tc.val + 1 := by have := tc.isLt; omega
    rw [this, bitsDown_mod _ _ _ (by have := tc.isLt; omega), bitsDown_double_add]
    simp

theorem appendBit_lenBits (b : BitBuffer) (x : Bool) : (appendBit b x).lenBits = b.lenBits + 1 := by
  obtain ⟨d, tv, tc⟩ := b
  have := tc.isLt
  unfold appendBit BitBuffer.lenBits
  by_cases h : tc.val + 1 = 8
  · simp [h]; omega
  · have : (tc + 1).val = tc.val + 1 := by omega
    simp [h, this]; omega

/-- R132: the tail value stays below `2^tc`. -/
theorem appendBit_clean (b : BitBuffer) (x : Bool) (h : b.tv.toNat < 2 ^ b.tc.val) :
    (appendBit b x).tv.toNat < 2 ^ (appendBit b x).tc.val := by
  obtain ⟨d, tv, tc⟩ := b
  unfold appendBit
  by_cases h8 : tc.val + 1 = 8
  · simp [h8]
  · have : (tc + 1).val = tc.val + 1 := by have := tc.isLt; omega
    simp only [h8, if_false, this, pow_succ]
    simp only at h
    refine lt_of_le_of_lt (Nat.mod_le _ _ : _ ≤ (tv * 2 : Byte).toNat + (if x then 1 else 0 : Byte).toNat) ?_
    have : (tv * 2 : Byte).toNat ≤ tv.toNat * 2 := by rw [BitVec.toNat_mul]; exact Nat.mod_le _ _
    cases x <;> simp <;> omega

theorem appendBits_bits (b : BitBuffer) (xs : List Bool) : (appendBits b xs).bits = b.bits ++ xs := by
  induction xs generalizing b with
  | nil => simp [appendBits]
  | cons x xs ih => rw [appendBits, List.foldl_cons]; have := ih (appendBit b x); rw [appendBits] at this; rw [this, appendBit_bits]; simp

theorem appendBits_lenBits (b : BitBuffer) (xs : List Bool) : (appendBits b xs).lenBits = b.lenBits + xs.length := by
  induction xs generalizing b with
  | nil => simp [appendBits]
  | cons x xs ih =>
    have := ih (appendBit b x)
    rw [appendBits] at this ⊢
    rw [List.foldl_cons, this, appendBit_lenBits, List.length_cons]; omega

theorem appendBits_clean (b : BitBuffer) (xs : List Bool) (h : b.tv.toNat < 2 ^ b.tc.val) :
    (appendBits b xs).tv.toNat < 2 ^ (appendBits b xs).tc.val := by
  induction xs generalizing b with
  | nil => simpa [appendBits]
  | cons x xs ih => exact ih (appendBit b x) (appendBit_clean b x h)

theorem flatMap_bits_length (d : List Byte) : (d.flatMap (fun y => bitsDown 8 y.toNat)).length = 8 * d.length := by
  induction d with
  | nil => rfl
  | cons y d ih => simp [ih]; omega

theorem BitBuffer.bits_length (b : BitBuffer) : b.bits.length = b.lenBits := by
  rw [BitBuffer.bits_eq, List.length_append, flatMap_bits_length, bitsDown_length, BitBuffer.lenBits]

theorem flatMap_bits_inj (d e : List Byte) (h : d.flatMap (fun y => bitsDown 8 y.toNat) = e.flatMap (fun y => bitsDown 8 y.toNat)) :
    d = e := by
  induction d generalizing e with
  | nil => cases e with
    | nil => rfl
    | cons y e => have := congrArg List.length h; simp at this; omega
  | cons x d ih => cases e with
    | nil => have := congrArg List.length h; simp at this
    | cons y e =>
      simp only [List.flatMap_cons] at h
      have h1 := List.append_inj h (by simp)
      rw [ih e h1.2, BitVec.eq_of_toNat_eq (bitsDown_inj 8 _ _ x.isLt y.isLt h1.1)]

/-- A buffer with a clean tail is determined by its bits (R20, R21). -/
theorem BitBuffer.ext_bits (a b : BitBuffer) (ha : a.tv.toNat < 2 ^ a.tc.val) (hb : b.tv.toNat < 2 ^ b.tc.val)
    (h : a.bits = b.bits) : a = b := by
  have hl : a.lenBits = b.lenBits := by rw [← BitBuffer.bits_length, ← BitBuffer.bits_length, h]
  obtain ⟨da, va, ca⟩ := a
  obtain ⟨db, vb, cb⟩ := b
  simp only [BitBuffer.lenBits] at hl
  have h1 := ca.isLt
  have h2 := cb.isLt
  have hd : da.length = db.length := by omega
  have hc : ca = cb := by apply Fin.ext; omega
  subst hc
  rw [BitBuffer.bits_eq, BitBuffer.bits_eq] at h
  have h3 := List.append_inj h (by rw [flatMap_bits_length, flatMap_bits_length, hd])
  have e1 : da = db := flatMap_bits_inj _ _ h3.1
  have e2 : va = vb := BitVec.eq_of_toNat_eq (bitsDown_inj _ _ _ ha hb h3.2)
  rw [e1, e2]

theorem appendBits_append (b : BitBuffer) (xs ys : List Bool) : appendBits b (xs ++ ys) = appendBits (appendBits b xs) ys := by
  simp [appendBits]

theorem BitBuffer.ok_iff (cap : Nat) (b : BitBuffer) :
    b.ok cap = true ↔ b.tv.toNat < 2 ^ b.tc.val ∧ b.lenBits ≤ 8 * cap := by
  simp [BitBuffer.ok]

@[simp] theorem empty_ok (cap : Nat) : BitBuffer.empty.ok cap = true :=
  (BitBuffer.ok_iff cap _).mpr ⟨by decide, by simp [BitBuffer.empty, BitBuffer.lenBits]⟩

/-- R132: appending bits that fit keeps R21. -/
theorem appendBits_ok (cap : Nat) (b : BitBuffer) (xs : List Bool) (h : b.ok cap = true)
    (hl : b.lenBits + xs.length ≤ 8 * cap) : (appendBits b xs).ok cap = true :=
  (BitBuffer.ok_iff cap _).mpr
    ⟨appendBits_clean _ _ ((BitBuffer.ok_iff cap b).mp h).1, by rw [appendBits_lenBits]; exact hl⟩

/-- The loop of R140 appends the least number of 0 bits that reaches 448 modulo 512. -/
theorem padZeros_eq (k fuel : Nat) (p : BitBuffer) (hk : k ≤ fuel) (hf : k < 512) (hp : 1 ≤ p.lenBits)
    (h : (p.lenBits + k) % 512 = 448) : padZeros fuel p = appendBits p (List.replicate k false) := by
  induction k generalizing fuel p with
  | zero =>
    cases fuel with
    | zero => rfl
    | succ f =>
      have : padDone p.lenBits = true := by simp [padDone]; omega
      simp [padZeros, this, appendBits]
  | succ k ih =>
    cases fuel with
    | zero => omega
    | succ f =>
      have : padDone p.lenBits = false := by simp [padDone]; omega
      rw [padZeros, this]
      simp only [Bool.false_eq_true, if_false]
      rw [ih f (appendBit p false) (by omega) (by omega) (by rw [appendBit_lenBits]; omega) (by rw [appendBit_lenBits]; omega)]
      rw [List.replicate_succ]; rfl

/-- `k` of R142. -/
def padCount (len : Nat) : Nat := (447 + 512 - len % 512) % 512

theorem padCount_spec (len : Nat) : (len + 1 + padCount len) % 512 = 448 := by unfold padCount; omega
theorem padCount_lt (len : Nat) : padCount len < 512 := by unfold padCount; omega
theorem padCount_int (len : Nat) : ((447 - (len : ℤ)) % 512).toNat = padCount len := by unfold padCount; omega

/-- The buffer `pad` ends with, before its bytes are taken. -/
def padBuffer (m : BitBuffer) : BitBuffer :=
  appendBits m (true :: List.replicate (padCount m.lenBits) false ++ bitsDown 64 m.lenBits)

theorem pad_eq (m : BitBuffer) : pad m = (padBuffer m).data := by
  unfold pad padBuffer
  rw [padZeros_eq (padCount m.lenBits) 512 _ (le_of_lt (padCount_lt _)) (padCount_lt _) (by rw [appendBit_lenBits]; omega)
    (by rw [appendBit_lenBits]; exact padCount_spec _), ← appendBits_append]
  rfl

theorem padBuffer_lenBits (m : BitBuffer) : (padBuffer m).lenBits = 512 * ((m.lenBits + 64) / 512 + 1) := by
  rw [padBuffer, appendBits_lenBits]
  simp [padCount]
  omega

theorem padBuffer_tc (m : BitBuffer) : (padBuffer m).tc = 0 := by
  have := padBuffer_lenBits m
  have h := (padBuffer m).tc.isLt
  unfold BitBuffer.lenBits at this
  apply Fin.ext
  simp
  omega

/-- R142: the number of blocks. -/
theorem pad_length (m : BitBuffer) : (pad m).length = 64 * ((m.lenBits + 64) / 512 + 1) := by
  have h := padBuffer_lenBits m
  have := padBuffer_tc m
  rw [pad_eq]
  unfold BitBuffer.lenBits at h ⊢
  rw [this] at h
  simp at h ⊢
  omega

theorem ofBytes_bits (s : List Byte) : (BitBuffer.ofBytes s).bits = s.flatMap (fun y => bitsDown 8 y.toNat) := by
  simp [BitBuffer.bits_eq, BitBuffer.ofBytes, bitsDown]

end Sys2Proof.Machine
end

