-- ==== Sys2Proof/Laws/Sha.lean ====
section
/-! SUPPORT. The pure functions of the engine: the message schedule, rounds, grouping, and the byte forms. -/

namespace Sys2Proof.Machine

theorem wordAt_eq (w : Vector Word 64) (i : Nat) (h : i < 64) : wordAt w i = w[i] := by
  simp [wordAt, Vector.getD, h]

/-- One turn of the loop of R163. -/
def schedStep (w : Vector Word 64) (i : Nat) : Vector Word 64 := w.setIfInBounds i (schedWord w i)

theorem schedStep_get (w : Vector Word 64) (i j : Nat) :
    wordAt (schedStep w i) j = if i = j ∧ j < 64 then schedWord w i else wordAt w j := by
  by_cases hj : j < 64
  · rw [wordAt_eq _ _ hj, schedStep, Vector.getElem_setIfInBounds, wordAt_eq _ _ hj]
    by_cases h : i = j <;> simp [h, hj]
  · simp [wordAt, Vector.getD, hj]

/-- The first `n` turns of the loop of R163. -/
def expandTo (n : Nat) (w : Vector Word 64) : Vector Word 64 := (List.range' 16 n).foldl schedStep w

theorem expand_eq (w : Vector Word 64) : expand w = expandTo 48 w := rfl

theorem expandTo_succ (n : Nat) (w : Vector Word 64) : expandTo (n + 1) w = schedStep (expandTo n w) (16 + n) := by
  simp [expandTo, List.range'_concat]

/-- The words below and above the part done are untouched. -/
theorem expandTo_other (n : Nat) (w : Vector Word 64) (j : Nat) (h : j < 16 ∨ 16 + n ≤ j) :
    wordAt (expandTo n w) j = wordAt w j := by
  induction n with
  | zero => rfl
  | succ n ih =>
    rw [expandTo_succ, schedStep_get, if_neg (by omega), ih (by omega)]

/-- A word once written keeps its value. -/
theorem expandTo_stable (n m : Nat) (w : Vector Word 64) (j : Nat) (h : j < 16 + n) (hm : n ≤ m) :
    wordAt (expandTo m w) j = wordAt (expandTo n w) j := by
  induction m, hm using Nat.le_induction with
  | base => rfl
  | succ m hm ih => rw [expandTo_succ, schedStep_get, if_neg (by omega), ih]

/-- R163: the low words are kept. -/
theorem expand_low (w : Vector Word 64) (i : Nat) (h : i < 16) : wordAt (expand w) i = wordAt w i :=
  expandTo_other 48 w i (Or.inl h)

/-- R163: every word from 16 on is `sched_word` of the expanded words themselves. -/
theorem expand_high (w : Vector Word 64) (i : Nat) (h : 16 ≤ i) (h2 : i < 64) :
    wordAt (expand w) i = schedWord (expand w) i := by
  obtain ⟨n, rfl⟩ := Nat.exists_eq_add_of_le h
  have hst : ∀ j, j < 16 + n → wordAt (expand w) j = wordAt (expandTo n w) j := fun j hj =>
    expandTo_stable n 48 w j hj (by omega)
  have : wordAt (expand w) (16 + n) = wordAt (expandTo (n + 1) w) (16 + n) :=
    expandTo_stable (n + 1) 48 w _ (by omega) (by omega)
  rw [this, expandTo_succ, schedStep_get, if_pos ⟨rfl, h2⟩, schedWord, schedWord, hst _ (by omega), hst _ (by omega),
    hst _ (by omega), hst _ (by omega)]

theorem vec64_ext (a b : Vector Word 64) (h : ∀ i, i < 64 → wordAt a i = wordAt b i) : a = b := by
  ext1 i hi
  rw [← wordAt_eq a i hi, ← wordAt_eq b i hi, h i hi]

/-- The recurrence of R163 and the low words determine the schedule. -/
theorem sched_unique (a b : Vector Word 64) (hlow : ∀ i, i < 16 → wordAt a i = wordAt b i)
    (ha : ∀ i, 16 ≤ i → i < 64 → wordAt a i = schedWord a i) (hb : ∀ i, 16 ≤ i → i < 64 → wordAt b i = schedWord b i) :
    a = b := by
  apply vec64_ext
  intro i
  induction i using Nat.strong_induction_on with
  | _ i ih =>
    intro hi
    by_cases h : i < 16
    · exact hlow i h
    · rw [ha i (by omega) hi, hb i (by omega) hi, schedWord, schedWord, ih _ (by omega) (by omega), ih _ (by omega) (by omega),
        ih _ (by omega) (by omega), ih _ (by omega) (by omega)]

/-- R163: expanding again writes the same values. -/
theorem expand_expand (w : Vector Word 64) : expand (expand w) = expand w :=
  sched_unique _ _ (fun i h => expand_low _ i h) (fun i h h2 => expand_high _ i h h2) (fun i h h2 => expand_high _ i h h2)

/-- The expansion depends on `W[0..15]` only (R163). -/
theorem expand_congr (a b : Vector Word 64) (h : ∀ i, i < 16 → wordAt a i = wordAt b i) : expand a = expand b :=
  sched_unique _ _ (fun i hi => by rw [expand_low _ i hi, expand_low _ i hi, h i hi])
    (fun i h h2 => expand_high _ i h h2) (fun i h h2 => expand_high _ i h h2)

theorem loadLow_get (w : Vector Word 64) (ws : List Word) (i : Nat) (h : i < 64) :
    wordAt (loadLow w ws) i = if i < 16 then ws.getD i 0 else wordAt w i := by
  rw [wordAt_eq _ _ h, wordAt_eq _ _ h]
  simp [loadLow]

/-- The schedule of a block does not depend on what `W` held (R167: "overwritten whatever they were"). -/
theorem expand_loadLow (w w' : Vector Word 64) (ws : List Word) : expand (loadLow w ws) = expand (loadLow w' ws) :=
  expand_congr _ _ fun i h => by
    rw [loadLow_get _ _ _ (by omega), loadLow_get _ _ _ (by omega), if_pos h, if_pos h]

theorem runRounds_succ (w : Vector Word 64) (wk : Vector Word 8) (n : Nat) :
    runRounds w wk (n + 1) = roundFn (runRounds w wk n) n (wordAt w n) := rfl

theorem addFiles_get (h wk : Vector Word 8) (i : Nat) (hi : i < 8) : (addFiles h wk)[i] = h[i] + wk[i] := by
  simp [addFiles]

/-- `compress_block` (R160) in the terms of the body of `compress` (R167). -/
theorem compressBlock_eq (h : Vector Word 8) (w : Vector Word 64) (ws : List Word) :
    compressBlock h ws = addFiles h (runRounds (expand (loadLow w ws)) h 64) := by
  rw [compressBlock, expand_loadLow _ w]

@[simp] theorem bytesBE_length (w : Word) : (bytesBE w).length = 4 := rfl

/-- `BE32` is the inverse of `BYTES_BE` (R146). -/
theorem be32_bytesBE (w : Word) :
    be32 (w.extractLsb' 24 8) (w.extractLsb' 16 8) (w.extractLsb' 8 8) (w.extractLsb' 0 8) = w := by
  apply BitVec.eq_of_getLsbD_eq
  intro i hi
  simp only [be32, BitVec.getLsbD_append, BitVec.getLsbD_extractLsb']
  interval_cases i <;> simp

theorem groupWords_bytesBE_append (w : Word) (r : List Byte) : groupWords (bytesBE w ++ r) = w :: groupWords r := by
  rw [bytesBE]
  simp only [List.cons_append, List.nil_append, groupWords, be32_bytesBE]

theorem groupWords_flatMap (ws : List Word) : groupWords (ws.flatMap bytesBE) = ws := by
  induction ws with
  | nil => rfl
  | cons w ws ih => rw [List.flatMap_cons, groupWords_bytesBE_append, ih]

theorem digestBytes_length (d : Vector Word 8) : (digestBytes d).length = 32 := by
  have : ∀ ws : List Word, (ws.flatMap bytesBE).length = 4 * ws.length := by
    intro ws
    induction ws with
    | nil => rfl
    | cons w ws ih => rw [List.flatMap_cons, List.length_append, ih, bytesBE_length, List.length_cons]; omega
  rw [digestBytes, this]
  simp

theorem digestWords_digestBytes (d : Vector Word 8) : digestWords (digestBytes d) = d := by
  rw [digestWords, digestBytes, groupWords_flatMap]
  ext1 i hi
  simp

/-- Grouping a byte string of whole words: word `i` is made of bytes `4i .. 4i+3` (R145). -/
theorem groupWords_getD (s : List Byte) (i : Nat) (h : 4 * i + 3 < s.length) :
    (groupWords s).getD i 0 = be32 (s.getD (4 * i) 0) (s.getD (4 * i + 1) 0) (s.getD (4 * i + 2) 0) (s.getD (4 * i + 3) 0) := by
  induction i generalizing s with
  | zero =>
    match s, h with
    | a :: b :: c :: d :: r, _ => rfl
    | [], h => simp at h
    | [_], h => simp at h
    | [_, _], h => simp at h
    | [_, _, _], h => simp at h
  | succ i ih =>
    match s, h with
    | a :: b :: c :: d :: r, h =>
      simp only [List.length_cons] at h
      have e : 4 * (i + 1) = 4 * i + 4 := by omega
      rw [groupWords, List.getD_cons_succ, ih r (by omega), e]
      rfl
    | [], h => simp at h
    | [_], h => simp at h
    | [_, _], h => simp at h
    | [_, _, _], h => simp at h

theorem be32_toNat (a b c d : Byte) :
    (be32 a b c d).toNat = a.toNat * 2 ^ 24 + b.toNat * 2 ^ 16 + c.toNat * 2 ^ 8 + d.toNat := by
  simp only [be32, BitVec.toNat_append]
  have := a.isLt; have := b.isLt; have := c.isLt; have := d.isLt
  rw [← Nat.shiftLeft_add_eq_or_of_lt (by omega), ← Nat.shiftLeft_add_eq_or_of_lt (by omega), ← Nat.shiftLeft_add_eq_or_of_lt (by omega)]
  simp only [Nat.shiftLeft_eq]
  omega

/-- Word `i` of block `b` (R147). -/
theorem blockWords_getD (pb : List Byte) (b i : Nat) (hb : b < pb.length / 64) (hi : i < 16) :
    (blockWords pb b).getD i 0 = be32 (pb.getD (64 * b + 4 * i) 0) (pb.getD (64 * b + 4 * i + 1) 0)
      (pb.getD (64 * b + 4 * i + 2) 0) (pb.getD (64 * b + 4 * i + 3) 0) := by
  have hl : ((pb.drop (64 * b)).take 64).length = 64 := by simp; omega
  have hg : ∀ k, k < 64 → ((pb.drop (64 * b)).take 64).getD k 0 = pb.getD (64 * b + k) 0 := by
    intro k hk
    simp [List.getD_eq_getElem?_getD, hk, List.getElem?_drop]
  rw [blockWords, groupWords_getD _ _ (by omega), hg _ (by omega), hg _ (by omega), hg _ (by omega), hg _ (by omega)]
  simp only [Nat.add_assoc]

theorem sha256Bytes_length (s : List Byte) : (sha256Bytes s).length = 32 := digestBytes_length _

end Sys2Proof.Machine
end

