-- ==== Sys2Proof/Laws/Exec.lean ====
section
/-! SUPPORT. What each command can do, said once: the effect of a command (`Did`), the errors (`Raised`), and that `exec` answers one of the two
or the stuck state of U16. -/

namespace Sys2Proof.Machine

/-- Everything `compressBody` does (R167). -/
theorem compressBody_eq (b : Nat) (s : State) : compressBody b s =
    { s with
      w := expand (loadLow s.w (blockWords s.pb b)), wv := .full
      wk := runRounds (expand (loadLow s.w (blockWords s.pb b))) s.h 64, wkv := false, rc := 64
      h := compressBlock s.h (blockWords s.pb b), hv := true } := by
  simp only [compressBody, compressBlock_eq s.h s.w, State.setSched, State.setWork, State.setHash, State.dropWork]

theorem compressAll_succ (n : Nat) (s : State) : compressAll (n + 1) s = compressBody n (compressAll n s) := by
  simp [compressAll, List.range_succ]

/-- Everything `compressAll` does (R176): only `H`, `W`, `WK` and `RC` change; after at least one block the status is the one R176
names. -/
theorem compressAll_spec (n : Nat) (s : State) (hn : 0 < n) :
    ∃ w wk, compressAll n s = { s with
      w := w, wv := .full, wk := wk, wkv := false, rc := 64, hv := true
      h := (List.range n).foldl (fun st b => compressBlock st (blockWords s.pb b)) s.h } ∧ expand w = w := by
  induction n with
  | zero => omega
  | succ n ih =>
    rw [compressAll_succ, compressBody_eq]
    rcases Nat.eq_zero_or_pos n with rfl | hp
    · exact ⟨expand (loadLow s.w (blockWords s.pb 0)), runRounds (expand (loadLow s.w (blockWords s.pb 0))) s.h 64,
        by simp only [compressAll, List.range_zero, List.foldl_nil, zero_add, List.range_one, List.foldl_cons],
        expand_expand _⟩
    · obtain ⟨w, wk, h, -⟩ := ih hp
      refine ⟨expand (loadLow (compressAll n s).w (blockWords (compressAll n s).pb n)),
        runRounds (expand (loadLow (compressAll n s).w (blockWords (compressAll n s).pb n))) (compressAll n s).h 64,
        ?_, expand_expand _⟩
      simp only [h, List.range_succ, List.foldl_append, List.foldl_cons, List.foldl_nil]

/-- No block writes `PB`. -/
@[simp] theorem compressAll_pb (n : Nat) (s : State) : (compressAll n s).pb = s.pb := by
  induction n with
  | zero => rfl
  | succ n ih => rw [compressAll_succ, compressBody_eq, ih]

/-- After a run of blocks `W` holds the schedule of the last of them, whatever `W` held before (R167). -/
theorem compressAll_w (n : Nat) (s : State) :
    (compressAll (n + 1) s).w = expand (loadLow (Vector.replicate 64 0) (blockWords s.pb n)) := by
  rw [compressAll_succ, compressBody_eq, compressAll_pb]
  exact expand_loadLow _ _ _

/-- Everything `appendToMsg` does (R135, R136, R233). -/
theorem appendToMsg_cases (bits : List Bool) (v : Word) (s : State) :
    (8 * s.par.msgCap < s.msg.lenBits + bits.length ∧ appendToMsg bits v s = s.raise .msgFull v) ∨
    (s.msg.lenBits + bits.length ≤ 8 * s.par.msgCap ∧
      appendToMsg bits v s = s.setMsg (appendBits s.msg bits)) := by
  unfold appendToMsg
  split
  · exact .inl ⟨by omega, rfl⟩
  · exact .inr ⟨by omega, rfl⟩

/-- The state after the blocks of `hash` (R176), before `DG` is written. -/
def hashRun (s : State) : State :=
  compressAll (nblk ((s.setPadded (pad s.msg)).setHash iv)) ((s.setPadded (pad s.msg)).setHash iv)

/-- Everything the blocks of `hash` do. -/
theorem hashRun_spec (s : State) :
    hashRun s = { s with
      pb := pad s.msg, pbv := true, h := sha256 s.msg, hv := true, w := (hashRun s).w, wv := .full, wk := (hashRun s).wk
      wkv := false, rc := 64 } ∧ expand (hashRun s).w = (hashRun s).w := by
  have hn : 0 < nblk ((s.setPadded (pad s.msg)).setHash iv) := by
    simp only [nblk, State.setPadded, State.setHash, if_true, pad_length]; omega
  obtain ⟨w, wk, h, hw⟩ := compressAll_spec _ ((s.setPadded (pad s.msg)).setHash iv) hn
  have hd : (List.range (nblk ((s.setPadded (pad s.msg)).setHash iv))).foldl
      (fun st b => compressBlock st (blockWords (pad s.msg) b)) iv = sha256 s.msg := by
    simp only [nblk, State.setPadded, State.setHash, if_true, sha256]
  have hc : hashRun s =
      { s with pb := pad s.msg, pbv := true, h := sha256 s.msg, hv := true, w := w, wv := .full, wk := wk, wkv := false
               rc := 64 } := by
    unfold hashRun
    simp only [State.setPadded, State.setHash] at h hd ⊢
    rw [h, hd]
  rw [hc]
  exact ⟨rfl, hw⟩

/-- `hash` leaves the schedule of the last block in `W` (R176). -/
theorem hashRun_w (s : State) : (hashRun s).w =
    expand (loadLow (Vector.replicate 64 0) (blockWords (pad s.msg) ((pad s.msg).length / 64 - 1))) := by
  have hn : nblk ((s.setPadded (pad s.msg)).setHash iv) = (pad s.msg).length / 64 - 1 + 1 := by
    simp only [nblk, State.setPadded, State.setHash, if_true, pad_length]; omega
  rw [hashRun, hn, compressAll_w]
  simp only [State.setPadded, State.setHash]

/-- Everything `hash` does on a buffer that meets R21 (R176). -/
theorem execHash_spec (s : State) (hok : s.msg.ok s.par.msgCap = true) :
    execHash s = .next { s with
      pb := pad s.msg, pbv := true, h := sha256 s.msg, hv := true, w := (hashRun s).w, wv := .full, wk := (hashRun s).wk
      wkv := false, rc := 64, dg := sha256 s.msg, dv := true } := by
  have e : execHash s = .next ((hashRun s).setDigest (hashRun s).h) := by
    rw [execHash, if_pos hok, hashRun]
  rw [e]
  have h := (hashRun_spec s).1
  rw [State.setDigest]
  generalize hashRun s = u at h ⊢
  generalize hw : u.w = w at h
  generalize hk : u.wk = wk at h
  generalize sha256 s.msg = d at h ⊢
  generalize pad s.msg = p at h ⊢
  subst h
  rfl

/-- Everything a command can do that does not raise an error, one line per command: `Did i s t` says that `t` is `s` after the effect of
`i` by its rule. -/
inductive Did : Instr → State → State → Prop where
  | nop (s) : Did .nop s s
  | sreset (s) : Did .sreset s s.softReset
  | msgClear (s) : Did .msgClear s (s.setMsg .empty)
  | msgByte (s b) (h : s.msg.lenBits + 8 ≤ 8 * s.par.msgCap) :
      Did (.msgByte b) s (s.setMsg (appendBits s.msg (byteBits b)))
  | msgBits (s n val) (h : s.msg.lenBits + n ≤ 8 * s.par.msgCap) :
      Did (.msgBits n val) s (s.setMsg (appendBits s.msg (valBits n val)))
  | msgPad (s) (h : s.msg.ok s.par.msgCap = true) : Did .msgPad s (s.setPadded (pad s.msg))
  | keyClear (s) : Did .keyClear s (s.setKey [])
  | keyByte (s b) (h : s.key.length + 1 ≤ s.par.keyCap) : Did (.keyByte b) s (s.setKey (s.key ++ [b]))
  | hInit (s) : Did .hInit s (s.setHash iv)
  | blkLoad (s blk) (hp : s.pbv = true) (hb : blk.toNat < s.pb.length / 64) :
      Did (.blkLoad blk) s (s.setSched (loadLow s.w (blockWords s.pb blk.toNat)) .lo)
  | sched (s) (h : s.wv ≠ .none) : Did .sched s (s.setSched (expand s.w) .full)
  | wkLoad (s) (h : s.hv = true) : Did .wkLoad s (s.setWork s.h 0)
  | round (s) (hk : s.wkv = true) (hw : s.wv = .full) (hr : s.rc ≠ 64) :
      Did .round s (s.setWork (roundFn s.wk s.rc.val (wordAt s.w s.rc.val)) (s.rc + 1))
  | fold (s) (hk : s.wkv = true) (hh : s.hv = true) (hr : s.rc = 64) :
      Did .fold s (s.setHash (addFiles s.h s.wk)).dropWork
  | compress (s blk) (hp : s.pbv = true) (hb : blk.toNat < s.pb.length / 64) (hh : s.hv = true) :
      Did (.compress blk) s (compressBody blk.toNat s)
  | digest (s) (h : s.hv = true) : Did .digest s (s.setDigest s.h)
  | hash (s) (h : s.msg.ok s.par.msgCap = true) :
      Did .hash s { s with
        pb := pad s.msg, pbv := true, h := sha256 s.msg, hv := true, w := (hashRun s).w, wv := .full
        wk := (hashRun s).wk, wkv := false, rc := 64, dg := sha256 s.msg, dv := true }
  | hmac (s) (hk : s.key ≠ []) (hm : s.msg.tc = 0) :
      Did .hmac s (s.setDigest (digestWords (hmacFn s.key s.msg.data))).dropAll

/-- The errors a command can raise (R231, the columns "raised by" and "cause"). -/
inductive Raised : Instr → State → ErrCode → Prop where
  | msgByte (s b) (h : 8 * s.par.msgCap < s.msg.lenBits + 8) : Raised (.msgByte b) s .msgFull
  | msgBits (s n val) (h : 8 * s.par.msgCap < s.msg.lenBits + n) : Raised (.msgBits n val) s .msgFull
  | keyByte (s b) (h : s.par.keyCap < s.key.length + 1) : Raised (.keyByte b) s .keyFull
  | blkLoadPad (s blk) (h : s.pbv = false) : Raised (.blkLoad blk) s .noPad
  | blkLoadRange (s blk) (h : s.pbv = true) (hb : s.pb.length / 64 ≤ blk.toNat) : Raised (.blkLoad blk) s .blkRange
  | sched (s) (h : s.wv = .none) : Raised .sched s .uninit
  | wkLoad (s) (h : s.hv = false) : Raised .wkLoad s .uninit
  | roundUninit (s) (h : s.wkv = false ∨ s.wv ≠ .full) : Raised .round s .uninit
  | roundSeq (s) (hk : s.wkv = true) (hw : s.wv = .full) (hr : s.rc = 64) : Raised .round s .seq
  | foldUninit (s) (h : s.wkv = false ∨ s.hv = false) : Raised .fold s .uninit
  | foldSeq (s) (hk : s.wkv = true) (hh : s.hv = true) (hr : s.rc ≠ 64) : Raised .fold s .seq
  | compressPad (s blk) (h : s.pbv = false) : Raised (.compress blk) s .noPad
  | compressRange (s blk) (h : s.pbv = true) (hb : s.pb.length / 64 ≤ blk.toNat) : Raised (.compress blk) s .blkRange
  | compressUninit (s blk) (h : s.pbv = true) (hb : blk.toNat < s.pb.length / 64) (hh : s.hv = false) :
      Raised (.compress blk) s .uninit
  | digest (s) (h : s.hv = false) : Raised .digest s .uninit
  | hmacKey (s) (h : s.key = []) : Raised .hmac s .keyEmpty
  | hmacTail (s) (h : s.key ≠ []) (hm : s.msg.tc ≠ 0) : Raised .hmac s .msgUnaligned

@[simp] theorem byteBits_length (b : Byte) : (byteBits b).length = 8 := bitsDown_length _ _
@[simp] theorem valBits_length (n : Nat) (val : Byte) : (valBits n val).length = n := bitsDown_length _ _

theorem nblk_of_valid (s : State) (h : s.pbv = true) : nblk s = s.pb.length / 64 := by simp [nblk, h]

/-- All that `exec` can answer: the effect of the command, one of its errors, or the stuck state of U16. Later proofs split on
this instead of unfolding the meanings. -/
theorem exec_cases (i : Instr) (s : State) :
    (∃ t, exec i s = .next t ∧ Did i s t) ∨
    (∃ c, exec i s = .next (s.raise c (encode i)) ∧ Raised i s c) ∨
    (exec i s = .fault .stuck ∧ s.msg.ok s.par.msgCap = false ∧ (i = .msgPad ∨ i = .hash)) := by
  cases i with
  | nop => exact .inl ⟨_, rfl, .nop s⟩
  | sreset => exact .inl ⟨_, rfl, .sreset s⟩
  | msgClear => exact .inl ⟨_, rfl, .msgClear s⟩
  | msgByte b =>
    simp only [exec, execMsgByte]
    rcases appendToMsg_cases (byteBits b) (encode (.msgByte b)) s with ⟨h, e⟩ | ⟨h, e⟩ <;> rw [e] <;> rw [byteBits_length] at h
    · exact .inr (.inl ⟨_, rfl, .msgByte s b h⟩)
    · exact .inl ⟨_, rfl, .msgByte s b h⟩
  | msgBits n val =>
    simp only [exec, execMsgBits]
    rcases appendToMsg_cases (valBits n val) (encode (.msgBits n val)) s with ⟨h, e⟩ | ⟨h, e⟩ <;> rw [e] <;> rw [valBits_length] at h
    · exact .inr (.inl ⟨_, rfl, .msgBits s n val h⟩)
    · exact .inl ⟨_, rfl, .msgBits s n val h⟩
  | msgPad =>
    simp only [exec, execMsgPad]
    split
    · exact .inl ⟨_, rfl, .msgPad s ‹_›⟩
    · exact .inr (.inr ⟨rfl, by simpa using ‹¬ s.msg.ok s.par.msgCap = true›, .inl trivial⟩)
  | keyClear => exact .inl ⟨_, rfl, .keyClear s⟩
  | keyByte b =>
    simp only [exec, execKeyByte]
    split
    · exact .inr (.inl ⟨_, rfl, .keyByte s b (by omega)⟩)
    · exact .inl ⟨_, rfl, .keyByte s b (by omega)⟩
  | hInit => exact .inl ⟨_, rfl, .hInit s⟩
  | blkLoad blk =>
    by_cases hp : s.pbv = false
    · exact .inr (.inl ⟨_, if_pos hp, .blkLoadPad s blk hp⟩)
    · have hp' : s.pbv = true := by simpa using hp
      have hn := nblk_of_valid s hp'
      by_cases hb : blockIndex blk ≥ nblk s
      · exact .inr (.inl ⟨_, (if_neg hp).trans (if_pos hb), .blkLoadRange s blk hp' (hn ▸ hb)⟩)
      · exact .inl ⟨_, (if_neg hp).trans (if_neg hb), .blkLoad s blk hp' (hn ▸ Nat.lt_of_not_ge hb)⟩
  | sched =>
    simp only [exec, execSched]
    split
    · exact .inr (.inl ⟨_, rfl, .sched s ‹_›⟩)
    · exact .inl ⟨_, rfl, .sched s ‹_›⟩
  | wkLoad =>
    simp only [exec, execWkLoad]
    split
    · exact .inr (.inl ⟨_, rfl, .wkLoad s ‹_›⟩)
    · exact .inl ⟨_, rfl, .wkLoad s (by simpa using ‹¬ s.hv = false›)⟩
  | round =>
    simp only [exec, execRound]
    split
    · exact .inr (.inl ⟨_, rfl, .roundUninit s ‹_›⟩)
    · have h : s.wkv = true ∧ s.wv = .full := by simpa using ‹¬ (s.wkv = false ∨ s.wv ≠ .full)›
      split
      · exact .inr (.inl ⟨_, rfl, .roundSeq s h.1 h.2 ‹_›⟩)
      · exact .inl ⟨_, rfl, .round s h.1 h.2 ‹_›⟩
  | fold =>
    simp only [exec, execFold]
    split
    · exact .inr (.inl ⟨_, rfl, .foldUninit s ‹_›⟩)
    · have h : s.wkv = true ∧ s.hv = true := by simpa using ‹¬ (s.wkv = false ∨ s.hv = false)›
      split
      · exact .inr (.inl ⟨_, rfl, .foldSeq s h.1 h.2 ‹_›⟩)
      · exact .inl ⟨_, rfl, .fold s h.1 h.2 (by simpa using ‹¬ s.rc ≠ 64›)⟩
  | compress blk =>
    by_cases hp : s.pbv = false
    · exact .inr (.inl ⟨_, if_pos hp, .compressPad s blk hp⟩)
    · have hp' : s.pbv = true := by simpa using hp
      have hn := nblk_of_valid s hp'
      by_cases hb : blockIndex blk ≥ nblk s
      · exact .inr (.inl ⟨_, (if_neg hp).trans (if_pos hb), .compressRange s blk hp' (hn ▸ hb)⟩)
      · have hb' : blk.toNat < s.pb.length / 64 := hn ▸ Nat.lt_of_not_ge hb
        by_cases hh : s.hv = false
        · exact .inr (.inl ⟨_, (if_neg hp).trans ((if_neg hb).trans (if_pos hh)), .compressUninit s blk hp' hb' hh⟩)
        · exact .inl ⟨_, (if_neg hp).trans ((if_neg hb).trans (if_neg hh)), .compress s blk hp' hb' (by simpa using hh)⟩
  | digest =>
    simp only [exec, execDigest]
    split
    · exact .inr (.inl ⟨_, rfl, .digest s ‹_›⟩)
    · exact .inl ⟨_, rfl, .digest s (by simpa using ‹¬ s.hv = false›)⟩
  | hash =>
    by_cases h : s.msg.ok s.par.msgCap = true
    · exact .inl ⟨_, execHash_spec s h, .hash s h⟩
    · exact .inr (.inr ⟨by simp only [exec, execHash, if_neg h], by simpa using h, .inr rfl⟩)
  | hmac =>
    simp only [exec, execHmac]
    split
    · exact .inr (.inl ⟨_, rfl, .hmacKey s ‹_›⟩)
    · split
      · exact .inr (.inl ⟨_, rfl, .hmacTail s ‹_› ‹_›⟩)
      · exact .inl ⟨_, rfl, .hmac s ‹_› (by simpa using ‹¬ s.msg.tc ≠ 0›)⟩

/-- What a next state of `exec` is. -/
theorem exec_next (i : Instr) (s t : State) (h : exec i s = .next t) :
    Did i s t ∨ ∃ c, t = s.raise c (encode i) ∧ Raised i s c := by
  rcases exec_cases i s with ⟨t', e, d⟩ | ⟨c, e, r⟩ | ⟨e, -⟩
  · rw [e] at h; cases h; exact .inl d
  · rw [e] at h; cases h; exact .inr ⟨c, rfl, r⟩
  · rw [e] at h; cases h

/-- A command refuses nothing. -/
theorem exec_not_refused (i : Instr) (s : State) (x : Refusal) : exec i s ≠ .refused x := by
  rcases exec_cases i s with ⟨t, e, -⟩ | ⟨c, e, -⟩ | ⟨e, -⟩ <;> rw [e] <;> simp

/-- A command with its operands in order raises no error. -/
theorem Did.not_raised {i : Instr} {s t : State} {c : ErrCode} (d : Did i s t) : ¬ Raised i s c := by
  intro r
  cases d <;> cases r <;> first | omega | simp_all

/-- An error is raised wherever its condition holds, and only one can be: the conditions exclude each other (R242). -/
theorem Raised.exec {i : Instr} {s : State} {c : ErrCode} (r : Raised i s c) : exec i s = .next (s.raise c (encode i)) := by
  rcases exec_cases i s with ⟨t, -, d⟩ | ⟨c', e, r'⟩ | ⟨-, -, h⟩
  · exact absurd r d.not_raised
  · have : c = c' := by
      cases r <;> cases r' <;> simp_all <;> omega
    rw [this, e]
  · rcases h with rfl | rfl <;> cases r

/-- A command takes effect wherever its operands are in order. -/
theorem Did.exec {i : Instr} {s t : State} (d : Did i s t) : exec i s = .next t := by
  rcases exec_cases i s with ⟨t', e, d'⟩ | ⟨c, -, r⟩ | ⟨-, hn, h⟩
  · have : t = t' := by
      cases d <;> cases d' <;> rfl
    rw [this, e]
  · exact absurd r d.not_raised
  · rcases h with rfl | rfl <;> cases d <;> simp_all

theorem Raised.ne_none {i : Instr} {s : State} {c : ErrCode} (h : Raised i s c) : c ≠ .none := by cases h <;> simp
end Sys2Proof.Machine
end

