-- ==== Sys2Proof/Laws/Bus.lean ====
section
/-! SUPPORT. The port: where an access goes, and what an event, a `CMD` write and a read can do. -/

namespace Sys2Proof.Machine

/-- The map of R50 read both ways: each register is found at its offset. -/
theorem regAt_offset (r : HostReg) : regAt r.offset = some r := by
  cases r with
  | h i => revert i; decide
  | wk i => revert i; decide
  | dg i => revert i; decide
  | w i => revert i; decide
  | _ => rfl

/-- Every offset of the map is aligned and in the window (R50, R65). -/
theorem offset_aligned (r : HostReg) : r.offset % 4 = 0 ∧ r.offset < 0x200 := by
  cases r with
  | h i | wk i | dg i | w i => simp only [HostReg.offset]; omega
  | _ => decide

/-- A 32-bit access at a register's address reaches that register. -/
theorem locate_offset (p : Params) (r : HostReg) : locate p .w32 (p.base + r.offset) = .ok r := by
  have h := offset_aligned r
  have h1 : ¬ (p.base + r.offset < p.base ∨ p.base + r.offset ≥ p.base + 0x200) := by omega
  have h2 : p.base + r.offset - p.base = r.offset := by omega
  simp only [locate, ne_eq, not_true_eq_false, if_false, if_neg h1, h2, h.1, regAt_offset]

theorem locate_base (p : Params) : locate p .w32 p.base = .ok .cmd := locate_offset p .cmd

theorem step_nil (s : State) (h : s.hostQ = []) : step s = .next s := by
  simp only [step, takeEvent, h]

theorem step_cons (s : State) (e : HostEvent) (rest : List HostEvent) (h : s.hostQ = e :: rest) :
    step s = hostEvent e (s.setQueue rest) := by
  simp only [step, takeEvent, h]

/-- A write to `CMD` is `cmdWrite` (R51). -/
theorem step_cmd (s : State) (v : Word) (rest : List HostEvent) (h : s.hostQ = .write .w32 s.par.base v :: rest) :
    step s = cmdWrite v (s.setQueue rest) := by
  rw [step_cons s _ _ h]
  simp only [hostEvent, State.setQueue, locate_base, hostWrite, if_true]

theorem cmdWrite_run (v : Word) (s : State) (h : s.fault = false) : cmdWrite v s = runCommand v s := by
  simp [cmdWrite, h]

theorem runCommand_ok (v : Word) (i : Instr) (s : State) (h : decode v = .ok i) : runCommand v s = exec i s := by
  simp only [runCommand, h]

/-- All that an event can do (R16, R65, R66, R241, R260), for the state from which the event is gone. -/
theorem hostEvent_cases (e : HostEvent) (s : State) :
    (∃ width addr r, e = .read width addr ∧ locate s.par width addr = .ok r ∧ hostEvent e s = .next (hostRead r s)) ∨
    (∃ width addr r v, e = .write width addr v ∧ locate s.par width addr = .ok r ∧ r ≠ .cmd ∧ hostEvent e s = .next s) ∨
    (∃ width addr v, e = .write width addr v ∧ locate s.par width addr = .ok .cmd ∧ hostEvent e s = cmdWrite v s) ∨
    (e = .powerOn ∧ hostEvent e s = .next s.softReset) ∨
    (∃ x, hostEvent e s = .refused x) := by
  cases e with
  | read width addr =>
    cases h : locate s.par width addr with
    | error x => exact .inr (.inr (.inr (.inr ⟨x, by simp only [hostEvent, h]⟩)))
    | ok r => exact .inl ⟨width, addr, r, rfl, h, by simp only [hostEvent, h]⟩
  | write width addr v =>
    cases h : locate s.par width addr with
    | error x => exact .inr (.inr (.inr (.inr ⟨x, by simp only [hostEvent, h]⟩)))
    | ok r =>
      by_cases hr : r = .cmd
      · subst hr
        exact .inr (.inr (.inl ⟨width, addr, v, rfl, h, by simp only [hostEvent, h, hostWrite, if_true]⟩))
      · exact .inr (.inl ⟨width, addr, r, v, rfl, h, hr, by simp only [hostEvent, h, hostWrite, if_neg hr]⟩)
  | powerOn => exact .inr (.inr (.inr (.inl ⟨rfl, rfl⟩)))

/-- All that a `CMD` write can do (R51, R86, R241). -/
theorem cmdWrite_cases (v : Word) (s : State) :
    (s.fault = true ∧ v ≠ 0x01000000 ∧ cmdWrite v s = .next s) ∨
    ((s.fault = false ∨ v = 0x01000000) ∧
      ((∃ i, decode v = .ok i ∧ cmdWrite v s = exec i s) ∨
       (∃ x, decode v = .error x ∧ cmdWrite v s = .next (s.raise .illegal v)))) := by
  by_cases h : s.fault = true ∧ v ≠ 0x01000000
  · exact .inl ⟨h.1, h.2, if_pos h⟩
  · refine .inr ⟨?_, ?_⟩
    · by_cases hf : s.fault = true
      · exact .inr (by by_contra hv; exact h ⟨hf, hv⟩)
      · exact .inl (by simpa using hf)
    · have e : cmdWrite v s = runCommand v s := if_neg h
      rw [e]
      cases hd : decode v with
      | ok i => exact .inl ⟨i, rfl, runCommand_ok v i s hd⟩
      | error x => exact .inr ⟨x, rfl, by simp only [runCommand, hd]⟩

/-- All that a read does (R65, R67). -/
theorem hostRead_cases (r : HostReg) (s : State) :
    (∃ v, readReg r s = some v ∧ hostRead r s = s.setRead v) ∨ (readReg r s = none ∧ hostRead r s = s.drawRead) := by
  unfold hostRead
  cases readReg r s with
  | some v => exact .inl ⟨v, rfl, rfl⟩
  | none => exact .inr ⟨rfl, rfl⟩

/-- The address that reaches `CMD` is `ENGINE_BASE` (R50, R51). -/
theorem locate_cmd (p : Params) (width : AccessWidth) (addr : Nat) (h : locate p width addr = .ok .cmd) :
    width = .w32 ∧ addr = p.base := by
  unfold locate at h
  split at h
  · cases h
  · split at h
    · cases h
    · split at h
      · cases h
      · have hw : width = .w32 := by simpa using ‹¬ width ≠ .w32›
        refine ⟨hw, ?_⟩
        split at h
        · rename_i r hr
          cases h
          have hlt : addr - p.base < 0x200 := by omega
          have key : ∀ off : Fin 0x200, off.val % 4 = 0 → regAt off.val = some .cmd → off.val = 0 := by decide +kernel
          have := key ⟨addr - p.base, hlt⟩ (by simpa using ‹¬ (addr - p.base) % 4 ≠ 0›) hr
          simp only at this
          omega
        · cases h

end Sys2Proof.Machine
end

