-- ==== Sys2Proof/Laws/Decode.lean ====
section
/-! SUPPORT. The fields of an assembled word. -/

namespace Sys2Proof

theorem getLsbD_high (x : Word) (h : x.toNat < 2 ^ 24) (j : Nat) (hj : 24 ≤ j) : x.getLsbD j = false :=
  Nat.testBit_lt_two_pow (lt_of_lt_of_le h (Nat.pow_le_pow_right (by omega) hj))

/-- The opcode field of an assembled word is its opcode (R81, R94). -/
theorem opcodeOf_assembled (opc : Byte) (x : Word) (h : x.toNat < 2 ^ 24) :
    opcodeOf ((opc.setWidth 32 <<< 24) ||| x) = opc := by
  apply BitVec.eq_of_getLsbD_eq
  intro i hi
  have e : 24 + i - 24 = i := by omega
  simp only [opcodeOf, BitVec.getLsbD_extractLsb', BitVec.getLsbD_or, BitVec.getLsbD_shiftLeft,
    getLsbD_high x h _ (Nat.le_add_right _ _), BitVec.getLsbD_setWidth, e]
  have : ¬ (24 + i < 24) := by omega
  have h2 : 24 + i < 32 := by omega
  have h3 : i < 32 := by omega
  simp [hi, this, h2, h3]

/-- The operand fields of an assembled word are those of its operand bits (R94). -/
theorem extract_assembled (opc : Byte) (x : Word) (k n : Nat) (h : k + n ≤ 24) :
    ((opc.setWidth 32 <<< 24) ||| x).extractLsb' k n = x.extractLsb' k n := by
  apply BitVec.eq_of_getLsbD_eq
  intro i hi
  simp only [BitVec.getLsbD_extractLsb', BitVec.getLsbD_or, BitVec.getLsbD_shiftLeft]
  have : k + i < 24 := by omega
  simp [this]

theorem extract_low_setWidth (n : Nat) (b : BitVec n) (h : n ≤ 32) :
    (b.setWidth 32 : Word).extractLsb' 0 n = b := by
  apply BitVec.eq_of_getLsbD_eq
  intro i hi
  simp only [BitVec.getLsbD_extractLsb', BitVec.getLsbD_setWidth, hi, Nat.zero_add]
  have : i < 32 := by omega
  simp [this]

theorem extract_above_setWidth (n k m : Nat) (b : BitVec n) (h : n ≤ k) :
    (b.setWidth 32 : Word).extractLsb' k m = 0 := by
  apply BitVec.eq_of_getLsbD_eq
  intro i hi
  simp only [BitVec.getLsbD_extractLsb', BitVec.getLsbD_setWidth]
  rw [BitVec.getLsbD_of_ge b (k + i) (by omega)]
  simp

theorem setWidth_toNat_lt (n : Nat) (b : BitVec n) (h : n ≤ 24) : (b.setWidth 32 : Word).toNat < 2 ^ 24 := by
  have h1 : b.toNat < 2 ^ 24 := lt_of_lt_of_le b.isLt (Nat.pow_le_pow_right (by omega) h)
  rw [BitVec.toNat_setWidth]
  exact lt_of_le_of_lt (Nat.mod_le _ _) h1

/-- A field as a number (R81 to R85). -/
theorem extract_toNat (v : Word) (k n : Nat) : (v.extractLsb' k n).toNat = v.toNat / 2 ^ k % 2 ^ n := by
  simp only [BitVec.extractLsb'_toNat, Nat.shiftRight_eq_div_pow]

/-- A command word is its opcode over its 24 operand bits (R81). -/
theorem opcodeOf_split (v : Word) : v.toNat = (opcodeOf v).toNat * 2 ^ 24 + (v.extractLsb' 0 24).toNat := by
  simp only [opcodeOf, extract_toNat]
  have := v.isLt
  omega

/-- The number of an assembled word with one operand at bit 0 (R94). -/
theorem assembled_toNat (opc : Byte) (n : Nat) (b : BitVec n) (h : n ≤ 24) :
    ((opc.setWidth 32 <<< 24) ||| b.setWidth 32 : Word).toNat = opc.toNat * 2 ^ 24 + b.toNat := by
  have h0 := opcodeOf_split ((opc.setWidth 32 <<< 24) ||| b.setWidth 32)
  rw [opcodeOf_assembled _ _ (setWidth_toNat_lt n b h), extract_assembled _ _ 0 24 (by omega)] at h0
  have h1 : b.toNat < 2 ^ 24 := lt_of_lt_of_le b.isLt (Nat.pow_le_pow_right (by omega) h)
  rw [h0, extract_toNat, BitVec.toNat_setWidth]
  omega

theorem encode_msgByte (b : Byte) : encode (.msgByte b) = BitVec.ofNat 32 (0x11000000 + b.toNat) := by
  refine BitVec.eq_of_toNat_eq ((assembled_toNat 0x11 8 b (by omega)).trans ?_)
  rw [BitVec.toNat_ofNat, Nat.mod_eq_of_lt (by have := b.isLt; omega)]
  rfl

theorem encode_keyByte (b : Byte) : encode (.keyByte b) = BitVec.ofNat 32 (0x19000000 + b.toNat) := by
  refine BitVec.eq_of_toNat_eq ((assembled_toNat 0x19 8 b (by omega)).trans ?_)
  rw [BitVec.toNat_ofNat, Nat.mod_eq_of_lt (by have := b.isLt; omega)]
  rfl

theorem encode_blkLoad (blk : BitVec 16) : encode (.blkLoad blk) = BitVec.ofNat 32 (0x21000000 + blk.toNat) := by
  refine BitVec.eq_of_toNat_eq ((assembled_toNat 0x21 16 blk (by omega)).trans ?_)
  rw [BitVec.toNat_ofNat, Nat.mod_eq_of_lt (by have := blk.isLt; omega)]
  rfl

theorem encode_compress (blk : BitVec 16) : encode (.compress blk) = BitVec.ofNat 32 (0x26000000 + blk.toNat) := by
  refine BitVec.eq_of_toNat_eq ((assembled_toNat 0x26 16 blk (by omega)).trans ?_)
  rw [BitVec.toNat_ofNat, Nat.mod_eq_of_lt (by have := blk.isLt; omega)]
  rfl

/-- `N` has four bits in its field (R84). -/
theorem encode_msgBits (n : Nat) (val : Byte) (h : n < 16) :
    encode (.msgBits n val) = BitVec.ofNat 32 (0x12000000 + 256 * n + val.toNat) := by
  interval_cases n <;> revert val <;> decide +kernel

end Sys2Proof
end

