-- ==== Sys2Proof/Laws/PerInstr.lean ====
section
/-! SUPPORT. Laws over every instruction as syntax, one lemma per constructor. -/

open Sys2Proof Sys2Proof.Machine

/-- The word of a well-formed instruction selects the row of the opcode map that has the instruction's opcode (R88, R94). -/
def Sys2Proof.Laws.EncodesInRow.Statement (i : Instr) : Prop :=
  i.wellFormed = true → ∃ row ∈ opcodeMap, opcodeOf row.1 = i.opcode ∧ selectsRow (encode i) row = true

namespace Sys2Proof.Laws.EncodesInRow

/-- A word selects a row when every bit of it that the mask has is the row's. -/
theorem selects_of_bits (v m k : Word) (h : ∀ i, i < 32 → (v.getLsbD i && k.getLsbD i) = m.getLsbD i) :
    selectsRow v (m, k) = true := by
  rw [selectsRow, beq_iff_eq]
  exact BitVec.eq_of_getLsbD_eq fun i hi => by rw [BitVec.getLsbD_and]; exact h i hi

theorem nop : Statement .nop := fun _ => ⟨(0x00000000, 0xFFFFFFFF), by decide, by decide, by decide⟩
theorem sreset : Statement .sreset := fun _ => ⟨(0x01000000, 0xFFFFFFFF), by decide, by decide, by decide⟩
theorem msgClear : Statement .msgClear := fun _ => ⟨(0x10000000, 0xFFFFFFFF), by decide, by decide, by decide⟩
theorem msgByte (b : Byte) : Statement (.msgByte b) := fun _ =>
  ⟨(0x11000000, 0xFFFFFF00), by decide, rfl, by revert b; decide +kernel⟩
theorem msgBits (n : Nat) (val : Byte) : Statement (.msgBits n val) := by
  intro h
  refine ⟨(0x12000000, 0xFFFFF000), by decide, rfl, ?_⟩
  simp only [Instr.wellFormed, bitsLegal, Bool.and_eq_true, decide_eq_true_eq] at h
  have h8 := h.1.2
  interval_cases n <;> revert val <;> decide +kernel
theorem msgPad : Statement .msgPad := fun _ => ⟨(0x13000000, 0xFFFFFFFF), by decide, by decide, by decide⟩
theorem keyClear : Statement .keyClear := fun _ => ⟨(0x18000000, 0xFFFFFFFF), by decide, by decide, by decide⟩
theorem keyByte (b : Byte) : Statement (.keyByte b) := fun _ =>
  ⟨(0x19000000, 0xFFFFFF00), by decide, rfl, by revert b; decide +kernel⟩
theorem hInit : Statement .hInit := fun _ => ⟨(0x20000000, 0xFFFFFFFF), by decide, by decide, by decide⟩
theorem blkLoad (blk : BitVec 16) : Statement (.blkLoad blk) := fun _ =>
  ⟨(0x21000000, 0xFFFF0000), by decide, rfl, selects_of_bits _ _ _ fun i hi => by
    interval_cases i <;> simp [encode, Instr.opcode, Instr.operandBits]⟩
theorem sched : Statement .sched := fun _ => ⟨(0x22000000, 0xFFFFFFFF), by decide, by decide, by decide⟩
theorem wkLoad : Statement .wkLoad := fun _ => ⟨(0x23000000, 0xFFFFFFFF), by decide, by decide, by decide⟩
theorem round : Statement .round := fun _ => ⟨(0x24000000, 0xFFFFFFFF), by decide, by decide, by decide⟩
theorem fold : Statement .fold := fun _ => ⟨(0x25000000, 0xFFFFFFFF), by decide, by decide, by decide⟩
theorem compress (blk : BitVec 16) : Statement (.compress blk) := fun _ =>
  ⟨(0x26000000, 0xFFFF0000), by decide, rfl, selects_of_bits _ _ _ fun i hi => by
    interval_cases i <;> simp [encode, Instr.opcode, Instr.operandBits]⟩
theorem digest : Statement .digest := fun _ => ⟨(0x27000000, 0xFFFFFFFF), by decide, by decide, by decide⟩
theorem hash : Statement .hash := fun _ => ⟨(0x30000000, 0xFFFFFFFF), by decide, by decide, by decide⟩
theorem hmac : Statement .hmac := fun _ => ⟨(0x31000000, 0xFFFFFFFF), by decide, by decide, by decide⟩

end Sys2Proof.Laws.EncodesInRow
end

