-- ==== Sys2Proof/Laws/State.lean ====
section
/-! SUPPORT. One lemma per field per update of State, so that no proof unfolds a record update. -/

namespace Sys2Proof.Machine

variable (s : State)

/-! ### `State.setMsg` -/

@[simp] theorem State.setMsg_msg (m : BitBuffer) : (s.setMsg m).msg = m := rfl
@[simp] theorem State.setMsg_key (m : BitBuffer) : (s.setMsg m).key = s.key := rfl
@[simp] theorem State.setMsg_pb (m : BitBuffer) : (s.setMsg m).pb = s.pb := rfl
@[simp] theorem State.setMsg_pbv (m : BitBuffer) : (s.setMsg m).pbv = s.pbv := rfl
@[simp] theorem State.setMsg_h (m : BitBuffer) : (s.setMsg m).h = s.h := rfl
@[simp] theorem State.setMsg_hv (m : BitBuffer) : (s.setMsg m).hv = s.hv := rfl
@[simp] theorem State.setMsg_w (m : BitBuffer) : (s.setMsg m).w = s.w := rfl
@[simp] theorem State.setMsg_wv (m : BitBuffer) : (s.setMsg m).wv = s.wv := rfl
@[simp] theorem State.setMsg_wk (m : BitBuffer) : (s.setMsg m).wk = s.wk := rfl
@[simp] theorem State.setMsg_wkv (m : BitBuffer) : (s.setMsg m).wkv = s.wkv := rfl
@[simp] theorem State.setMsg_rc (m : BitBuffer) : (s.setMsg m).rc = s.rc := rfl
@[simp] theorem State.setMsg_dg (m : BitBuffer) : (s.setMsg m).dg = s.dg := rfl
@[simp] theorem State.setMsg_dv (m : BitBuffer) : (s.setMsg m).dv = s.dv := rfl
@[simp] theorem State.setMsg_fault (m : BitBuffer) : (s.setMsg m).fault = s.fault := rfl
@[simp] theorem State.setMsg_errCause (m : BitBuffer) : (s.setMsg m).errCause = s.errCause := rfl
@[simp] theorem State.setMsg_errCmd (m : BitBuffer) : (s.setMsg m).errCmd = s.errCmd := rfl
@[simp] theorem State.setMsg_par (m : BitBuffer) : (s.setMsg m).par = s.par := rfl
@[simp] theorem State.setMsg_hostQ (m : BitBuffer) : (s.setMsg m).hostQ = s.hostQ := rfl
@[simp] theorem State.setMsg_rdata (m : BitBuffer) : (s.setMsg m).rdata = s.rdata := rfl
@[simp] theorem State.setMsg_draws (m : BitBuffer) : (s.setMsg m).draws = s.draws := rfl

/-! ### `State.setKey` -/

@[simp] theorem State.setKey_msg (k : List Byte) : (s.setKey k).msg = s.msg := rfl
@[simp] theorem State.setKey_key (k : List Byte) : (s.setKey k).key = k := rfl
@[simp] theorem State.setKey_pb (k : List Byte) : (s.setKey k).pb = s.pb := rfl
@[simp] theorem State.setKey_pbv (k : List Byte) : (s.setKey k).pbv = s.pbv := rfl
@[simp] theorem State.setKey_h (k : List Byte) : (s.setKey k).h = s.h := rfl
@[simp] theorem State.setKey_hv (k : List Byte) : (s.setKey k).hv = s.hv := rfl
@[simp] theorem State.setKey_w (k : List Byte) : (s.setKey k).w = s.w := rfl
@[simp] theorem State.setKey_wv (k : List Byte) : (s.setKey k).wv = s.wv := rfl
@[simp] theorem State.setKey_wk (k : List Byte) : (s.setKey k).wk = s.wk := rfl
@[simp] theorem State.setKey_wkv (k : List Byte) : (s.setKey k).wkv = s.wkv := rfl
@[simp] theorem State.setKey_rc (k : List Byte) : (s.setKey k).rc = s.rc := rfl
@[simp] theorem State.setKey_dg (k : List Byte) : (s.setKey k).dg = s.dg := rfl
@[simp] theorem State.setKey_dv (k : List Byte) : (s.setKey k).dv = s.dv := rfl
@[simp] theorem State.setKey_fault (k : List Byte) : (s.setKey k).fault = s.fault := rfl
@[simp] theorem State.setKey_errCause (k : List Byte) : (s.setKey k).errCause = s.errCause := rfl
@[simp] theorem State.setKey_errCmd (k : List Byte) : (s.setKey k).errCmd = s.errCmd := rfl
@[simp] theorem State.setKey_par (k : List Byte) : (s.setKey k).par = s.par := rfl
@[simp] theorem State.setKey_hostQ (k : List Byte) : (s.setKey k).hostQ = s.hostQ := rfl
@[simp] theorem State.setKey_rdata (k : List Byte) : (s.setKey k).rdata = s.rdata := rfl
@[simp] theorem State.setKey_draws (k : List Byte) : (s.setKey k).draws = s.draws := rfl

/-! ### `State.setPadded` -/

@[simp] theorem State.setPadded_msg (p : List Byte) : (s.setPadded p).msg = s.msg := rfl
@[simp] theorem State.setPadded_key (p : List Byte) : (s.setPadded p).key = s.key := rfl
@[simp] theorem State.setPadded_pb (p : List Byte) : (s.setPadded p).pb = p := rfl
@[simp] theorem State.setPadded_pbv (p : List Byte) : (s.setPadded p).pbv = true := rfl
@[simp] theorem State.setPadded_h (p : List Byte) : (s.setPadded p).h = s.h := rfl
@[simp] theorem State.setPadded_hv (p : List Byte) : (s.setPadded p).hv = s.hv := rfl
@[simp] theorem State.setPadded_w (p : List Byte) : (s.setPadded p).w = s.w := rfl
@[simp] theorem State.setPadded_wv (p : List Byte) : (s.setPadded p).wv = s.wv := rfl
@[simp] theorem State.setPadded_wk (p : List Byte) : (s.setPadded p).wk = s.wk := rfl
@[simp] theorem State.setPadded_wkv (p : List Byte) : (s.setPadded p).wkv = s.wkv := rfl
@[simp] theorem State.setPadded_rc (p : List Byte) : (s.setPadded p).rc = s.rc := rfl
@[simp] theorem State.setPadded_dg (p : List Byte) : (s.setPadded p).dg = s.dg := rfl
@[simp] theorem State.setPadded_dv (p : List Byte) : (s.setPadded p).dv = s.dv := rfl
@[simp] theorem State.setPadded_fault (p : List Byte) : (s.setPadded p).fault = s.fault := rfl
@[simp] theorem State.setPadded_errCause (p : List Byte) : (s.setPadded p).errCause = s.errCause := rfl
@[simp] theorem State.setPadded_errCmd (p : List Byte) : (s.setPadded p).errCmd = s.errCmd := rfl
@[simp] theorem State.setPadded_par (p : List Byte) : (s.setPadded p).par = s.par := rfl
@[simp] theorem State.setPadded_hostQ (p : List Byte) : (s.setPadded p).hostQ = s.hostQ := rfl
@[simp] theorem State.setPadded_rdata (p : List Byte) : (s.setPadded p).rdata = s.rdata := rfl
@[simp] theorem State.setPadded_draws (p : List Byte) : (s.setPadded p).draws = s.draws := rfl

/-! ### `State.setHash` -/

@[simp] theorem State.setHash_msg (x : Vector Word 8) : (s.setHash x).msg = s.msg := rfl
@[simp] theorem State.setHash_key (x : Vector Word 8) : (s.setHash x).key = s.key := rfl
@[simp] theorem State.setHash_pb (x : Vector Word 8) : (s.setHash x).pb = s.pb := rfl
@[simp] theorem State.setHash_pbv (x : Vector Word 8) : (s.setHash x).pbv = s.pbv := rfl
@[simp] theorem State.setHash_h (x : Vector Word 8) : (s.setHash x).h = x := rfl
@[simp] theorem State.setHash_hv (x : Vector Word 8) : (s.setHash x).hv = true := rfl
@[simp] theorem State.setHash_w (x : Vector Word 8) : (s.setHash x).w = s.w := rfl
@[simp] theorem State.setHash_wv (x : Vector Word 8) : (s.setHash x).wv = s.wv := rfl
@[simp] theorem State.setHash_wk (x : Vector Word 8) : (s.setHash x).wk = s.wk := rfl
@[simp] theorem State.setHash_wkv (x : Vector Word 8) : (s.setHash x).wkv = s.wkv := rfl
@[simp] theorem State.setHash_rc (x : Vector Word 8) : (s.setHash x).rc = s.rc := rfl
@[simp] theorem State.setHash_dg (x : Vector Word 8) : (s.setHash x).dg = s.dg := rfl
@[simp] theorem State.setHash_dv (x : Vector Word 8) : (s.setHash x).dv = s.dv := rfl
@[simp] theorem State.setHash_fault (x : Vector Word 8) : (s.setHash x).fault = s.fault := rfl
@[simp] theorem State.setHash_errCause (x : Vector Word 8) : (s.setHash x).errCause = s.errCause := rfl
@[simp] theorem State.setHash_errCmd (x : Vector Word 8) : (s.setHash x).errCmd = s.errCmd := rfl
@[simp] theorem State.setHash_par (x : Vector Word 8) : (s.setHash x).par = s.par := rfl
@[simp] theorem State.setHash_hostQ (x : Vector Word 8) : (s.setHash x).hostQ = s.hostQ := rfl
@[simp] theorem State.setHash_rdata (x : Vector Word 8) : (s.setHash x).rdata = s.rdata := rfl
@[simp] theorem State.setHash_draws (x : Vector Word 8) : (s.setHash x).draws = s.draws := rfl

/-! ### `State.setSched` -/

@[simp] theorem State.setSched_msg (x : Vector Word 64) (v : SchedValid) : (s.setSched x v).msg = s.msg := rfl
@[simp] theorem State.setSched_key (x : Vector Word 64) (v : SchedValid) : (s.setSched x v).key = s.key := rfl
@[simp] theorem State.setSched_pb (x : Vector Word 64) (v : SchedValid) : (s.setSched x v).pb = s.pb := rfl
@[simp] theorem State.setSched_pbv (x : Vector Word 64) (v : SchedValid) : (s.setSched x v).pbv = s.pbv := rfl
@[simp] theorem State.setSched_h (x : Vector Word 64) (v : SchedValid) : (s.setSched x v).h = s.h := rfl
@[simp] theorem State.setSched_hv (x : Vector Word 64) (v : SchedValid) : (s.setSched x v).hv = s.hv := rfl
@[simp] theorem State.setSched_w (x : Vector Word 64) (v : SchedValid) : (s.setSched x v).w = x := rfl
@[simp] theorem State.setSched_wv (x : Vector Word 64) (v : SchedValid) : (s.setSched x v).wv = v := rfl
@[simp] theorem State.setSched_wk (x : Vector Word 64) (v : SchedValid) : (s.setSched x v).wk = s.wk := rfl
@[simp] theorem State.setSched_wkv (x : Vector Word 64) (v : SchedValid) : (s.setSched x v).wkv = s.wkv := rfl
@[simp] theorem State.setSched_rc (x : Vector Word 64) (v : SchedValid) : (s.setSched x v).rc = s.rc := rfl
@[simp] theorem State.setSched_dg (x : Vector Word 64) (v : SchedValid) : (s.setSched x v).dg = s.dg := rfl
@[simp] theorem State.setSched_dv (x : Vector Word 64) (v : SchedValid) : (s.setSched x v).dv = s.dv := rfl
@[simp] theorem State.setSched_fault (x : Vector Word 64) (v : SchedValid) : (s.setSched x v).fault = s.fault := rfl
@[simp] theorem State.setSched_errCause (x : Vector Word 64) (v : SchedValid) : (s.setSched x v).errCause = s.errCause := rfl
@[simp] theorem State.setSched_errCmd (x : Vector Word 64) (v : SchedValid) : (s.setSched x v).errCmd = s.errCmd := rfl
@[simp] theorem State.setSched_par (x : Vector Word 64) (v : SchedValid) : (s.setSched x v).par = s.par := rfl
@[simp] theorem State.setSched_hostQ (x : Vector Word 64) (v : SchedValid) : (s.setSched x v).hostQ = s.hostQ := rfl
@[simp] theorem State.setSched_rdata (x : Vector Word 64) (v : SchedValid) : (s.setSched x v).rdata = s.rdata := rfl
@[simp] theorem State.setSched_draws (x : Vector Word 64) (v : SchedValid) : (s.setSched x v).draws = s.draws := rfl

/-! ### `State.setWork` -/

@[simp] theorem State.setWork_msg (x : Vector Word 8) (n : Fin 65) : (s.setWork x n).msg = s.msg := rfl
@[simp] theorem State.setWork_key (x : Vector Word 8) (n : Fin 65) : (s.setWork x n).key = s.key := rfl
@[simp] theorem State.setWork_pb (x : Vector Word 8) (n : Fin 65) : (s.setWork x n).pb = s.pb := rfl
@[simp] theorem State.setWork_pbv (x : Vector Word 8) (n : Fin 65) : (s.setWork x n).pbv = s.pbv := rfl
@[simp] theorem State.setWork_h (x : Vector Word 8) (n : Fin 65) : (s.setWork x n).h = s.h := rfl
@[simp] theorem State.setWork_hv (x : Vector Word 8) (n : Fin 65) : (s.setWork x n).hv = s.hv := rfl
@[simp] theorem State.setWork_w (x : Vector Word 8) (n : Fin 65) : (s.setWork x n).w = s.w := rfl
@[simp] theorem State.setWork_wv (x : Vector Word 8) (n : Fin 65) : (s.setWork x n).wv = s.wv := rfl
@[simp] theorem State.setWork_wk (x : Vector Word 8) (n : Fin 65) : (s.setWork x n).wk = x := rfl
@[simp] theorem State.setWork_wkv (x : Vector Word 8) (n : Fin 65) : (s.setWork x n).wkv = true := rfl
@[simp] theorem State.setWork_rc (x : Vector Word 8) (n : Fin 65) : (s.setWork x n).rc = n := rfl
@[simp] theorem State.setWork_dg (x : Vector Word 8) (n : Fin 65) : (s.setWork x n).dg = s.dg := rfl
@[simp] theorem State.setWork_dv (x : Vector Word 8) (n : Fin 65) : (s.setWork x n).dv = s.dv := rfl
@[simp] theorem State.setWork_fault (x : Vector Word 8) (n : Fin 65) : (s.setWork x n).fault = s.fault := rfl
@[simp] theorem State.setWork_errCause (x : Vector Word 8) (n : Fin 65) : (s.setWork x n).errCause = s.errCause := rfl
@[simp] theorem State.setWork_errCmd (x : Vector Word 8) (n : Fin 65) : (s.setWork x n).errCmd = s.errCmd := rfl
@[simp] theorem State.setWork_par (x : Vector Word 8) (n : Fin 65) : (s.setWork x n).par = s.par := rfl
@[simp] theorem State.setWork_hostQ (x : Vector Word 8) (n : Fin 65) : (s.setWork x n).hostQ = s.hostQ := rfl
@[simp] theorem State.setWork_rdata (x : Vector Word 8) (n : Fin 65) : (s.setWork x n).rdata = s.rdata := rfl
@[simp] theorem State.setWork_draws (x : Vector Word 8) (n : Fin 65) : (s.setWork x n).draws = s.draws := rfl

/-! ### `State.dropWork` -/

@[simp] theorem State.dropWork_msg : (s.dropWork).msg = s.msg := rfl
@[simp] theorem State.dropWork_key : (s.dropWork).key = s.key := rfl
@[simp] theorem State.dropWork_pb : (s.dropWork).pb = s.pb := rfl
@[simp] theorem State.dropWork_pbv : (s.dropWork).pbv = s.pbv := rfl
@[simp] theorem State.dropWork_h : (s.dropWork).h = s.h := rfl
@[simp] theorem State.dropWork_hv : (s.dropWork).hv = s.hv := rfl
@[simp] theorem State.dropWork_w : (s.dropWork).w = s.w := rfl
@[simp] theorem State.dropWork_wv : (s.dropWork).wv = s.wv := rfl
@[simp] theorem State.dropWork_wk : (s.dropWork).wk = s.wk := rfl
@[simp] theorem State.dropWork_wkv : (s.dropWork).wkv = false := rfl
@[simp] theorem State.dropWork_rc : (s.dropWork).rc = s.rc := rfl
@[simp] theorem State.dropWork_dg : (s.dropWork).dg = s.dg := rfl
@[simp] theorem State.dropWork_dv : (s.dropWork).dv = s.dv := rfl
@[simp] theorem State.dropWork_fault : (s.dropWork).fault = s.fault := rfl
@[simp] theorem State.dropWork_errCause : (s.dropWork).errCause = s.errCause := rfl
@[simp] theorem State.dropWork_errCmd : (s.dropWork).errCmd = s.errCmd := rfl
@[simp] theorem State.dropWork_par : (s.dropWork).par = s.par := rfl
@[simp] theorem State.dropWork_hostQ : (s.dropWork).hostQ = s.hostQ := rfl
@[simp] theorem State.dropWork_rdata : (s.dropWork).rdata = s.rdata := rfl
@[simp] theorem State.dropWork_draws : (s.dropWork).draws = s.draws := rfl

/-! ### `State.setDigest` -/

@[simp] theorem State.setDigest_msg (x : Vector Word 8) : (s.setDigest x).msg = s.msg := rfl
@[simp] theorem State.setDigest_key (x : Vector Word 8) : (s.setDigest x).key = s.key := rfl
@[simp] theorem State.setDigest_pb (x : Vector Word 8) : (s.setDigest x).pb = s.pb := rfl
@[simp] theorem State.setDigest_pbv (x : Vector Word 8) : (s.setDigest x).pbv = s.pbv := rfl
@[simp] theorem State.setDigest_h (x : Vector Word 8) : (s.setDigest x).h = s.h := rfl
@[simp] theorem State.setDigest_hv (x : Vector Word 8) : (s.setDigest x).hv = s.hv := rfl
@[simp] theorem State.setDigest_w (x : Vector Word 8) : (s.setDigest x).w = s.w := rfl
@[simp] theorem State.setDigest_wv (x : Vector Word 8) : (s.setDigest x).wv = s.wv := rfl
@[simp] theorem State.setDigest_wk (x : Vector Word 8) : (s.setDigest x).wk = s.wk := rfl
@[simp] theorem State.setDigest_wkv (x : Vector Word 8) : (s.setDigest x).wkv = s.wkv := rfl
@[simp] theorem State.setDigest_rc (x : Vector Word 8) : (s.setDigest x).rc = s.rc := rfl
@[simp] theorem State.setDigest_dg (x : Vector Word 8) : (s.setDigest x).dg = x := rfl
@[simp] theorem State.setDigest_dv (x : Vector Word 8) : (s.setDigest x).dv = true := rfl
@[simp] theorem State.setDigest_fault (x : Vector Word 8) : (s.setDigest x).fault = s.fault := rfl
@[simp] theorem State.setDigest_errCause (x : Vector Word 8) : (s.setDigest x).errCause = s.errCause := rfl
@[simp] theorem State.setDigest_errCmd (x : Vector Word 8) : (s.setDigest x).errCmd = s.errCmd := rfl
@[simp] theorem State.setDigest_par (x : Vector Word 8) : (s.setDigest x).par = s.par := rfl
@[simp] theorem State.setDigest_hostQ (x : Vector Word 8) : (s.setDigest x).hostQ = s.hostQ := rfl
@[simp] theorem State.setDigest_rdata (x : Vector Word 8) : (s.setDigest x).rdata = s.rdata := rfl
@[simp] theorem State.setDigest_draws (x : Vector Word 8) : (s.setDigest x).draws = s.draws := rfl

/-! ### `State.dropAll` -/

@[simp] theorem State.dropAll_msg : (s.dropAll).msg = s.msg := rfl
@[simp] theorem State.dropAll_key : (s.dropAll).key = s.key := rfl
@[simp] theorem State.dropAll_pb : (s.dropAll).pb = s.pb := rfl
@[simp] theorem State.dropAll_pbv : (s.dropAll).pbv = false := rfl
@[simp] theorem State.dropAll_h : (s.dropAll).h = s.h := rfl
@[simp] theorem State.dropAll_hv : (s.dropAll).hv = false := rfl
@[simp] theorem State.dropAll_w : (s.dropAll).w = s.w := rfl
@[simp] theorem State.dropAll_wv : (s.dropAll).wv = .none := rfl
@[simp] theorem State.dropAll_wk : (s.dropAll).wk = s.wk := rfl
@[simp] theorem State.dropAll_wkv : (s.dropAll).wkv = false := rfl
@[simp] theorem State.dropAll_rc : (s.dropAll).rc = 0 := rfl
@[simp] theorem State.dropAll_dg : (s.dropAll).dg = s.dg := rfl
@[simp] theorem State.dropAll_dv : (s.dropAll).dv = s.dv := rfl
@[simp] theorem State.dropAll_fault : (s.dropAll).fault = s.fault := rfl
@[simp] theorem State.dropAll_errCause : (s.dropAll).errCause = s.errCause := rfl
@[simp] theorem State.dropAll_errCmd : (s.dropAll).errCmd = s.errCmd := rfl
@[simp] theorem State.dropAll_par : (s.dropAll).par = s.par := rfl
@[simp] theorem State.dropAll_hostQ : (s.dropAll).hostQ = s.hostQ := rfl
@[simp] theorem State.dropAll_rdata : (s.dropAll).rdata = s.rdata := rfl
@[simp] theorem State.dropAll_draws : (s.dropAll).draws = s.draws := rfl

/-! ### `State.setQueue` -/

@[simp] theorem State.setQueue_msg (q : List HostEvent) : (s.setQueue q).msg = s.msg := rfl
@[simp] theorem State.setQueue_key (q : List HostEvent) : (s.setQueue q).key = s.key := rfl
@[simp] theorem State.setQueue_pb (q : List HostEvent) : (s.setQueue q).pb = s.pb := rfl
@[simp] theorem State.setQueue_pbv (q : List HostEvent) : (s.setQueue q).pbv = s.pbv := rfl
@[simp] theorem State.setQueue_h (q : List HostEvent) : (s.setQueue q).h = s.h := rfl
@[simp] theorem State.setQueue_hv (q : List HostEvent) : (s.setQueue q).hv = s.hv := rfl
@[simp] theorem State.setQueue_w (q : List HostEvent) : (s.setQueue q).w = s.w := rfl
@[simp] theorem State.setQueue_wv (q : List HostEvent) : (s.setQueue q).wv = s.wv := rfl
@[simp] theorem State.setQueue_wk (q : List HostEvent) : (s.setQueue q).wk = s.wk := rfl
@[simp] theorem State.setQueue_wkv (q : List HostEvent) : (s.setQueue q).wkv = s.wkv := rfl
@[simp] theorem State.setQueue_rc (q : List HostEvent) : (s.setQueue q).rc = s.rc := rfl
@[simp] theorem State.setQueue_dg (q : List HostEvent) : (s.setQueue q).dg = s.dg := rfl
@[simp] theorem State.setQueue_dv (q : List HostEvent) : (s.setQueue q).dv = s.dv := rfl
@[simp] theorem State.setQueue_fault (q : List HostEvent) : (s.setQueue q).fault = s.fault := rfl
@[simp] theorem State.setQueue_errCause (q : List HostEvent) : (s.setQueue q).errCause = s.errCause := rfl
@[simp] theorem State.setQueue_errCmd (q : List HostEvent) : (s.setQueue q).errCmd = s.errCmd := rfl
@[simp] theorem State.setQueue_par (q : List HostEvent) : (s.setQueue q).par = s.par := rfl
@[simp] theorem State.setQueue_hostQ (q : List HostEvent) : (s.setQueue q).hostQ = q := rfl
@[simp] theorem State.setQueue_rdata (q : List HostEvent) : (s.setQueue q).rdata = s.rdata := rfl
@[simp] theorem State.setQueue_draws (q : List HostEvent) : (s.setQueue q).draws = s.draws := rfl

/-! ### `State.setRead` -/

@[simp] theorem State.setRead_msg (v : Word) : (s.setRead v).msg = s.msg := rfl
@[simp] theorem State.setRead_key (v : Word) : (s.setRead v).key = s.key := rfl
@[simp] theorem State.setRead_pb (v : Word) : (s.setRead v).pb = s.pb := rfl
@[simp] theorem State.setRead_pbv (v : Word) : (s.setRead v).pbv = s.pbv := rfl
@[simp] theorem State.setRead_h (v : Word) : (s.setRead v).h = s.h := rfl
@[simp] theorem State.setRead_hv (v : Word) : (s.setRead v).hv = s.hv := rfl
@[simp] theorem State.setRead_w (v : Word) : (s.setRead v).w = s.w := rfl
@[simp] theorem State.setRead_wv (v : Word) : (s.setRead v).wv = s.wv := rfl
@[simp] theorem State.setRead_wk (v : Word) : (s.setRead v).wk = s.wk := rfl
@[simp] theorem State.setRead_wkv (v : Word) : (s.setRead v).wkv = s.wkv := rfl
@[simp] theorem State.setRead_rc (v : Word) : (s.setRead v).rc = s.rc := rfl
@[simp] theorem State.setRead_dg (v : Word) : (s.setRead v).dg = s.dg := rfl
@[simp] theorem State.setRead_dv (v : Word) : (s.setRead v).dv = s.dv := rfl
@[simp] theorem State.setRead_fault (v : Word) : (s.setRead v).fault = s.fault := rfl
@[simp] theorem State.setRead_errCause (v : Word) : (s.setRead v).errCause = s.errCause := rfl
@[simp] theorem State.setRead_errCmd (v : Word) : (s.setRead v).errCmd = s.errCmd := rfl
@[simp] theorem State.setRead_par (v : Word) : (s.setRead v).par = s.par := rfl
@[simp] theorem State.setRead_hostQ (v : Word) : (s.setRead v).hostQ = s.hostQ := rfl
@[simp] theorem State.setRead_rdata (v : Word) : (s.setRead v).rdata = v := rfl
@[simp] theorem State.setRead_draws (v : Word) : (s.setRead v).draws = s.draws := rfl

/-! ### `State.drawRead` -/

@[simp] theorem State.drawRead_msg : (s.drawRead).msg = s.msg := rfl
@[simp] theorem State.drawRead_key : (s.drawRead).key = s.key := rfl
@[simp] theorem State.drawRead_pb : (s.drawRead).pb = s.pb := rfl
@[simp] theorem State.drawRead_pbv : (s.drawRead).pbv = s.pbv := rfl
@[simp] theorem State.drawRead_h : (s.drawRead).h = s.h := rfl
@[simp] theorem State.drawRead_hv : (s.drawRead).hv = s.hv := rfl
@[simp] theorem State.drawRead_w : (s.drawRead).w = s.w := rfl
@[simp] theorem State.drawRead_wv : (s.drawRead).wv = s.wv := rfl
@[simp] theorem State.drawRead_wk : (s.drawRead).wk = s.wk := rfl
@[simp] theorem State.drawRead_wkv : (s.drawRead).wkv = s.wkv := rfl
@[simp] theorem State.drawRead_rc : (s.drawRead).rc = s.rc := rfl
@[simp] theorem State.drawRead_dg : (s.drawRead).dg = s.dg := rfl
@[simp] theorem State.drawRead_dv : (s.drawRead).dv = s.dv := rfl
@[simp] theorem State.drawRead_fault : (s.drawRead).fault = s.fault := rfl
@[simp] theorem State.drawRead_errCause : (s.drawRead).errCause = s.errCause := rfl
@[simp] theorem State.drawRead_errCmd : (s.drawRead).errCmd = s.errCmd := rfl
@[simp] theorem State.drawRead_par : (s.drawRead).par = s.par := rfl
@[simp] theorem State.drawRead_hostQ : (s.drawRead).hostQ = s.hostQ := rfl
@[simp] theorem State.drawRead_rdata : (s.drawRead).rdata = Config.freeWord s.draws := rfl
@[simp] theorem State.drawRead_draws : (s.drawRead).draws = s.draws + 1 := rfl

/-! ### `State.raise` -/

@[simp] theorem State.raise_msg (c : ErrCode) (v : Word) : (s.raise c v).msg = s.msg := rfl
@[simp] theorem State.raise_key (c : ErrCode) (v : Word) : (s.raise c v).key = s.key := rfl
@[simp] theorem State.raise_pb (c : ErrCode) (v : Word) : (s.raise c v).pb = s.pb := rfl
@[simp] theorem State.raise_pbv (c : ErrCode) (v : Word) : (s.raise c v).pbv = s.pbv := rfl
@[simp] theorem State.raise_h (c : ErrCode) (v : Word) : (s.raise c v).h = s.h := rfl
@[simp] theorem State.raise_hv (c : ErrCode) (v : Word) : (s.raise c v).hv = s.hv := rfl
@[simp] theorem State.raise_w (c : ErrCode) (v : Word) : (s.raise c v).w = s.w := rfl
@[simp] theorem State.raise_wv (c : ErrCode) (v : Word) : (s.raise c v).wv = s.wv := rfl
@[simp] theorem State.raise_wk (c : ErrCode) (v : Word) : (s.raise c v).wk = s.wk := rfl
@[simp] theorem State.raise_wkv (c : ErrCode) (v : Word) : (s.raise c v).wkv = s.wkv := rfl
@[simp] theorem State.raise_rc (c : ErrCode) (v : Word) : (s.raise c v).rc = s.rc := rfl
@[simp] theorem State.raise_dg (c : ErrCode) (v : Word) : (s.raise c v).dg = s.dg := rfl
@[simp] theorem State.raise_dv (c : ErrCode) (v : Word) : (s.raise c v).dv = s.dv := rfl
@[simp] theorem State.raise_fault (c : ErrCode) (v : Word) : (s.raise c v).fault = true := rfl
@[simp] theorem State.raise_errCause (c : ErrCode) (v : Word) : (s.raise c v).errCause = c := rfl
@[simp] theorem State.raise_errCmd (c : ErrCode) (v : Word) : (s.raise c v).errCmd = v := rfl
@[simp] theorem State.raise_par (c : ErrCode) (v : Word) : (s.raise c v).par = s.par := rfl
@[simp] theorem State.raise_hostQ (c : ErrCode) (v : Word) : (s.raise c v).hostQ = s.hostQ := rfl
@[simp] theorem State.raise_rdata (c : ErrCode) (v : Word) : (s.raise c v).rdata = s.rdata := rfl
@[simp] theorem State.raise_draws (c : ErrCode) (v : Word) : (s.raise c v).draws = s.draws := rfl

/-! ### `State.softReset` -/

@[simp] theorem State.softReset_msg : (s.softReset).msg = .empty := rfl
@[simp] theorem State.softReset_key : (s.softReset).key = [] := rfl
@[simp] theorem State.softReset_pb : (s.softReset).pb = [] := rfl
@[simp] theorem State.softReset_pbv : (s.softReset).pbv = false := rfl
@[simp] theorem State.softReset_h : (s.softReset).h = Vector.replicate 8 0 := rfl
@[simp] theorem State.softReset_hv : (s.softReset).hv = false := rfl
@[simp] theorem State.softReset_w : (s.softReset).w = Vector.replicate 64 0 := rfl
@[simp] theorem State.softReset_wv : (s.softReset).wv = .none := rfl
@[simp] theorem State.softReset_wk : (s.softReset).wk = Vector.replicate 8 0 := rfl
@[simp] theorem State.softReset_wkv : (s.softReset).wkv = false := rfl
@[simp] theorem State.softReset_rc : (s.softReset).rc = 0 := rfl
@[simp] theorem State.softReset_dg : (s.softReset).dg = Vector.replicate 8 0 := rfl
@[simp] theorem State.softReset_dv : (s.softReset).dv = false := rfl
@[simp] theorem State.softReset_fault : (s.softReset).fault = false := rfl
@[simp] theorem State.softReset_errCause : (s.softReset).errCause = .none := rfl
@[simp] theorem State.softReset_errCmd : (s.softReset).errCmd = 0 := rfl
@[simp] theorem State.softReset_par : (s.softReset).par = s.par := rfl
@[simp] theorem State.softReset_hostQ : (s.softReset).hostQ = s.hostQ := rfl
@[simp] theorem State.softReset_rdata : (s.softReset).rdata = s.rdata := rfl
@[simp] theorem State.softReset_draws : (s.softReset).draws = s.draws := rfl

/-! ### `State.resetWith` -/

@[simp] theorem State.resetWith_msg (p : Params) : (State.resetWith p).msg = .empty := rfl
@[simp] theorem State.resetWith_key (p : Params) : (State.resetWith p).key = [] := rfl
@[simp] theorem State.resetWith_pb (p : Params) : (State.resetWith p).pb = [] := rfl
@[simp] theorem State.resetWith_pbv (p : Params) : (State.resetWith p).pbv = false := rfl
@[simp] theorem State.resetWith_h (p : Params) : (State.resetWith p).h = Vector.replicate 8 0 := rfl
@[simp] theorem State.resetWith_hv (p : Params) : (State.resetWith p).hv = false := rfl
@[simp] theorem State.resetWith_w (p : Params) : (State.resetWith p).w = Vector.replicate 64 0 := rfl
@[simp] theorem State.resetWith_wv (p : Params) : (State.resetWith p).wv = .none := rfl
@[simp] theorem State.resetWith_wk (p : Params) : (State.resetWith p).wk = Vector.replicate 8 0 := rfl
@[simp] theorem State.resetWith_wkv (p : Params) : (State.resetWith p).wkv = false := rfl
@[simp] theorem State.resetWith_rc (p : Params) : (State.resetWith p).rc = 0 := rfl
@[simp] theorem State.resetWith_dg (p : Params) : (State.resetWith p).dg = Vector.replicate 8 0 := rfl
@[simp] theorem State.resetWith_dv (p : Params) : (State.resetWith p).dv = false := rfl
@[simp] theorem State.resetWith_fault (p : Params) : (State.resetWith p).fault = false := rfl
@[simp] theorem State.resetWith_errCause (p : Params) : (State.resetWith p).errCause = .none := rfl
@[simp] theorem State.resetWith_errCmd (p : Params) : (State.resetWith p).errCmd = 0 := rfl
@[simp] theorem State.resetWith_par (p : Params) : (State.resetWith p).par = p := rfl
@[simp] theorem State.resetWith_hostQ (p : Params) : (State.resetWith p).hostQ = [] := rfl
@[simp] theorem State.resetWith_rdata (p : Params) : (State.resetWith p).rdata = 0 := rfl
@[simp] theorem State.resetWith_draws (p : Params) : (State.resetWith p).draws = 0 := rfl

end Sys2Proof.Machine
end

