-- ==== Sys2Proof/Tests/Slice0.lean ====
section
/-! SUPPORT. The model's own tests. Expected values stand in `spec/95_test_vectors.md` (V) or are the words of the opcode map R88; each
test is one step. The last section gives, for the statements with hypotheses, states and operands that meet them together. -/

open Sys2Proof Sys2Proof.Machine

namespace Sys2Proof.Tests

/-! ### Helpers -/

/-- The outcome is a next state with the property `p`. -/
def nextWith (o : Host.Outcome State Fault Refusal) (p : State → Bool) : Bool :=
  match o with
  | .next t => p t
  | .fault _ => false
  | .refused _ => false

/-- The outcome is the refusal `x`. -/
def refusedWith (o : Host.Outcome State Fault Refusal) (x : Refusal) : Bool :=
  match o with
  | .refused y => y == x
  | .next _ => false
  | .fault _ => false

/-- A row of V section 5: the word, issued in `s`, leaves the three error registers at the given values. -/
def errorRow (s : State) (word cause cmd status : Nat) : Bool :=
  nextWith (step (s.withFetchWord 32 word)) fun t =>
    readReg .errCause t == some (BitVec.ofNat 32 cause) && readReg .errCmd t == some (BitVec.ofNat 32 cmd) &&
      readReg .status t == some (BitVec.ofNat 32 status)

/-- The message "abc". -/
def abc : BitBuffer := { data := [0x61, 0x62, 0x63], tv := 0, tc := 0 }

/-- Its padded block (V 3.2, 3.3). -/
def abcBlock : List Byte := [0x61, 0x62, 0x63, 0x80] ++ List.replicate 59 0 ++ [0x18]

/-- The digest of "abc" (V 3.2, S1). -/
def abcDigest : Vector Word 8 :=
  #v[0xBA7816BF, 0x8F01CFEA, 0x414140DE, 0x5DAE2223, 0xB00361A3, 0x96177A9C, 0xB410FF61, 0xF20015AD]

/-- `W` with `W[0..15]` of the block of "abc" (V 3.3). -/
def abcLow : Vector Word 64 := Vector.ofFn fun i => if i.val = 0 then 0x61626380 else if i.val = 15 then 0x18 else 0

/-- `MSG` holds "abc" and `PB` its padding. -/
def padded : State := { State.reset with msg := abc, pb := abcBlock, pbv := true }

/-- After `msg.pad`, `h.init`, `blk.load 0`. -/
def loaded : State := { padded with h := iv, hv := true, w := abcLow, wv := .lo }

/-- The state before the first `round`, with the schedule of "abc". -/
def working : State := { loaded with w := expand abcLow, wv := .full, wk := iv, wkv := true }

/-- The state after the last `round`, with the working registers of V 3.3. -/
def rounded : State :=
  { working with
    wk := #v[0x506E3058, 0xD39A2165, 0x04D24D6C, 0xB85E2CE9, 0x5EF50F24, 0xFB121210, 0x948D25B6, 0x961F4894]
    rc := 64 }

/-- A block of the capacities of V section 5, with a full message and a full key. -/
def full : State :=
  { State.resetWith { msgCap := 4, keyCap := 2, base := 0 } with
    msg := { data := [1, 1, 1, 1], tv := 0, tc := 0 }, key := [1, 1] }

/-- The fault state after the reserved opcode 0x02000000 (V section 5). -/
def faulted : State := { State.reset with fault := true, errCause := .illegal, errCmd := 0x02000000 }

/-- The state of the vector S3 before `hmac`: "hello world" under "geheim". -/
def keyed : State :=
  { State.reset with
    msg := { data := [0x68, 0x65, 0x6C, 0x6C, 0x6F, 0x20, 0x77, 0x6F, 0x72, 0x6C, 0x64], tv := 0, tc := 0 }
    key := [0x67, 0x65, 0x68, 0x65, 0x69, 0x6D] }

/-! ### WellFormed: the ill-formed operands of R84 are refused -/

theorem test_wellFormed_refuses_count_zero : (Instr.msgBits 0 0).wellFormed = false := by decide
theorem test_wellFormed_refuses_count_nine : (Instr.msgBits 9 0).wellFormed = false := by decide
theorem test_wellFormed_refuses_value_too_wide : (Instr.msgBits 3 0b1000).wellFormed = false := by decide
theorem test_wellFormed_accepts_bits : (Instr.msgBits 3 0b101).wellFormed = true ∧ (Instr.msgBits 8 0xFF).wellFormed = true := by
  decide
theorem test_assemble_refuses_illegal : assemble (.msgBits 9 0) = none ∧ assemble (.msgBits 3 0b101) = some 0x12000305 := by decide

/-! ### Decoding: a word of each row of R88, written out bit by bit (opcode, then operands) -/

theorem test_decode_nop : decode 0b00000000_00000000_00000000_00000000 = .ok .nop := rfl
theorem test_decode_sreset : decode 0b00000001_00000000_00000000_00000000 = .ok .sreset := rfl
theorem test_decode_msgClear : decode 0b00010000_00000000_00000000_00000000 = .ok .msgClear := rfl
theorem test_decode_msgByte : decode 0b00010001_00000000_00000000_10110001 = .ok (.msgByte 0b10110001) := rfl
theorem test_decode_msgBits : decode 0b00010010_00000000_00000101_00010011 = .ok (.msgBits 5 0b10011) := rfl
theorem test_decode_msgPad : decode 0b00010011_00000000_00000000_00000000 = .ok .msgPad := rfl
theorem test_decode_keyClear : decode 0b00011000_00000000_00000000_00000000 = .ok .keyClear := rfl
theorem test_decode_keyByte : decode 0b00011001_00000000_00000000_01000001 = .ok (.keyByte 0x41) := rfl
theorem test_decode_hInit : decode 0b00100000_00000000_00000000_00000000 = .ok .hInit := rfl
theorem test_decode_blkLoad : decode 0b00100001_00000000_10000000_00000011 = .ok (.blkLoad 0x8003) := rfl
theorem test_decode_sched : decode 0b00100010_00000000_00000000_00000000 = .ok .sched := rfl
theorem test_decode_wkLoad : decode 0b00100011_00000000_00000000_00000000 = .ok .wkLoad := rfl
theorem test_decode_round : decode 0b00100100_00000000_00000000_00000000 = .ok .round := rfl
theorem test_decode_fold : decode 0b00100101_00000000_00000000_00000000 = .ok .fold := rfl
theorem test_decode_compress : decode 0b00100110_00000000_00000001_00000010 = .ok (.compress 0x0102) := rfl
theorem test_decode_digest : decode 0b00100111_00000000_00000000_00000000 = .ok .digest := rfl
theorem test_decode_hash : decode 0b00110000_00000000_00000000_00000000 = .ok .hash := rfl
theorem test_decode_hmac : decode 0b00110001_00000000_00000000_00000000 = .ok .hmac := rfl
theorem test_decode_rejects_by_name :
    decode 0x14000000 = .error .reservedOpcode ∧ decode 0x30000001 = .error .reservedBits ∧
    decode 0x11000100 = .error .reservedBits ∧ decode 0x12001305 = .error .reservedBits ∧
    decode 0x12000000 = .error .badCount ∧ decode 0x12000102 = .error .badValue ∧ decode 0x21010000 = .error .reservedBits :=
  ⟨rfl, rfl, rfl, rfl, rfl, rfl, rfl⟩
theorem test_decodeTableWord : decodeTableWord 32 0x12000305 = some (.msgBits 3 5) ∧ decodeTableWord 32 0x12000000 = none := by
  decide

/-! ### Word functions (V section 2) -/

theorem test_rotr_shr_not : rotr 0x12345678 7 = 0xF02468AC ∧ rotr 0x12345678 18 = 0x159E048D ∧ shr 0x12345678 3 = 0x02468ACF ∧
    not32 0x12345678 = 0xEDCBA987 := by decide
theorem test_ch_maj : ch 0x510E527F 0x9B05688C 0x1F83D9AB = 0x1F85C98C ∧ maj 0x6A09E667 0xBB67AE85 0x3C6EF372 = 0x3A6FE667 := by
  decide
theorem test_sigmas : bigSigma0 0x6A09E667 = 0xCE20B47E ∧ bigSigma1 0x510E527F = 0x3587272B ∧
    smallSigma0 0x12345678 = 0xE7FCE6EE ∧ smallSigma1 0x12345678 = 0xA1F78649 := by decide

/-! ### One step of each command (V sections 3 to 6) -/

theorem test_nop_leaves_state : nextWith (exec .nop padded) (· == padded) = true := by decide
theorem test_sreset_in_fault : errorRow faulted 0x01000000 0 0 0x00 = true := by decide
theorem test_sreset_with_bit_set_dropped : errorRow faulted 0x01000001 1 0x02000000 0x01 = true := by decide
theorem test_msgClear : nextWith (exec .msgClear padded) (fun t => t.msg == .empty && t.pb == abcBlock && t.pbv) = true := by decide
theorem test_msgByte_straddles_tail :
    nextWith (exec (.msgByte 0xFF) { State.reset with msg := { data := [], tv := 5, tc := 3 } })
      (fun t => t.msg == { data := [0xBF], tv := 7, tc := 3 } && readReg .msgLenLo t == some 11) = true := by decide
theorem test_msgByte_full : errorRow full 0x11000001 2 0x11000001 0x01 = true := by decide
theorem test_msgBits_flushes_tail :
    nextWith (exec (.msgBits 1 0) { State.reset with msg := { data := [], tv := 0x61, tc := 7 } })
      (fun t => t.msg == { data := [0xC2], tv := 0, tc := 0 } && readReg .msgLenLo t == some 8) = true := by decide
theorem test_msgBits_full : errorRow full 0x12000101 2 0x12000101 0x01 = true := by decide
theorem test_msgPad_abc : nextWith (exec .msgPad { State.reset with msg := abc }) (fun t => t.pb == abcBlock && t.pbv) = true := by
  decide +kernel
theorem test_msgPad_three_bits :
    nextWith (exec .msgPad { State.reset with msg := { data := [], tv := 5, tc := 3 } })
      (fun t => t.pb == [0xB0] ++ List.replicate 62 0 ++ [3] && readReg .nblk t == some 1) = true := by decide +kernel
theorem test_keyClear : nextWith (exec .keyClear keyed) (fun t => t.key == [] && t.msg == keyed.msg) = true := by decide
theorem test_keyByte_appends_last : nextWith (exec (.keyByte 0x41) keyed)
    (fun t => t.key == [0x67, 0x65, 0x68, 0x65, 0x69, 0x6D, 0x41]) = true := by decide
theorem test_keyByte_full : errorRow full 0x19000001 3 0x19000001 0x01 = true := by decide
theorem test_hInit : nextWith (exec .hInit State.reset)
    (fun t => readReg (.h 0) t == some 0x6A09E667 && readReg (.h 7) t == some 0x5BE0CD19) = true := by decide
theorem test_blkLoad_abc : nextWith (exec (.blkLoad 0) padded)
    (fun t => readReg (.w 0) t == some 0x61626380 && readReg (.w 1) t == some 0 && readReg (.w 15) t == some 0x18 &&
      readReg (.w 16) t == none) = true := by decide +kernel
theorem test_blkLoad_range : errorRow padded 0x21000001 5 0x21000001 0x03 = true := by decide
theorem test_sched_abc : nextWith (exec .sched loaded)
    (fun t => readReg (.w 16) t == some 0x61626380 && readReg (.w 17) t == some 0x000F0000 &&
      readReg (.w 18) t == some 0x7DA86405 && readReg (.w 19) t == some 0x600003C6 &&
      readReg (.w 63) t == some 0x12B1EDEB) = true := by decide +kernel
theorem test_sched_uninit : errorRow State.reset 0x22000000 6 0x22000000 0x01 = true := by decide
theorem test_wkLoad : nextWith (exec .wkLoad { rounded with wkv := false })
    (fun t => readReg (.wk 4) t == some 0x510E527F && readReg .rc t == some 0) = true := by decide
theorem test_wkLoad_uninit : errorRow State.reset 0x23000000 6 0x23000000 0x01 = true := by decide
theorem test_round_zero : nextWith (exec .round working)
    (fun t => t.wk == #v[0x5D6AEBCD, 0x6A09E667, 0xBB67AE85, 0x3C6EF372, 0xFA2A4622, 0x510E527F, 0x9B05688C, 0x1F83D9AB] &&
      readReg .rc t == some 1) = true := by decide +kernel
theorem test_round_sixty_five : errorRow rounded 0x24000000 7 0x24000000 0x37 = true := by decide
theorem test_fold_abc : nextWith (exec .fold rounded) (fun t => t.h == abcDigest && readReg (.wk 0) t == none) = true := by decide
theorem test_fold_too_early : errorRow { rounded with rc := 63 } 0x25000000 7 0x25000000 0x37 = true := by decide
theorem test_compress_abc : nextWith (exec (.compress 0) loaded)
    (fun t => t.h == abcDigest && readReg .rc t == some 64 && readReg .status t == some 0x16) = true := by decide +kernel
theorem test_compress_uninit : errorRow padded 0x26000000 6 0x26000000 0x03 = true := by decide
theorem test_digest : nextWith (exec .digest { padded with h := abcDigest, hv := true })
    (fun t => readReg (.dg 0) t == some 0xBA7816BF && readReg (.dg 7) t == some 0xF20015AD) = true := by decide
theorem test_digest_uninit : errorRow State.reset 0x27000000 6 0x27000000 0x01 = true := by decide
theorem test_hash_abc : nextWith (exec .hash { State.reset with msg := abc })
    (fun t => t.dg == abcDigest && t.h == abcDigest && readReg .status t == some 0x56 && readReg .nblk t == some 1) = true := by
  decide +kernel
theorem test_hash_twenty_seven_bits :
    nextWith (exec .hash { State.reset with msg := { data := [0x61, 0x62, 0x63], tv := 5, tc := 3 } })
      (fun t => readReg (.w 0) t == some 0x616263B0 && readReg (.w 63) t == some 0xABB71877 &&
        t.dg == #v[0x99C11363, 0xA639C43C, 0x3E2260FA, 0xD4D88738, 0xC6CEC296, 0x487A43F7, 0x6A76D9F9, 0x67A71C9A]) = true := by
  decide +kernel
theorem test_hmac_hello_world : nextWith (exec .hmac keyed)
    (fun t => readReg .status t == some 0x40 && readReg .rc t == some 0 &&
      t.dg == #v[0xB69FEF3E, 0x3FE467E1, 0xFCC73536, 0x73FD120D, 0xCCBF41C8, 0x2DC61C56, 0x4A212363, 0xCEE0F122]) = true := by
  decide +kernel
theorem test_hmac_empty_key_before_tail :
    errorRow { State.reset with msg := { data := [], tv := 1, tc := 1 } } 0x31000000 8 0x31000000 0x01 = true := by decide

/-! ### The port -/

theorem test_illegal_words : errorRow State.reset 0x02000000 1 0x02000000 0x01 = true ∧
    errorRow State.reset 0x12000900 1 0x12000900 0x01 = true ∧ errorRow State.reset 0x12000308 1 0x12000308 0x01 = true := by
  decide
theorem test_read_of_status : nextWith (step { loaded with hostQ := [.read .w32 0x004] }) (·.rdata == 0x0E) = true := by decide
theorem test_read_of_invalid_word_counts : nextWith (step { loaded with hostQ := [.read .w32 0x140] }) (·.draws == 1) = true := by
  decide
theorem test_byte_read_refused :
    refusedWith (step { State.reset with hostQ := [.read .w8 0x004] }) (.notWordAccess .w8) = true := by decide
theorem test_reserved_offset_refused :
    refusedWith (step { State.reset with hostQ := [.write .w32 0x03C 0] }) (.reservedOffset 0x03C) = true := by decide

theorem test_digestHex : digestHex [] abcDigest = "ba7816bf8f01cfea414140de5dae2223b00361a396177a9cb410ff61f20015ad".toList ∧
    (digestHex [' '] abcDigest).length = 71 := by decide +kernel

theorem test_capacity_registers : readReg .msgCap full = some 4 ∧ readReg .keyCap full = some 2 := by decide

/-! ### Witnesses: the hypotheses of each statement, met together -/

/-- `s` with one event pending. -/
def pending (s : State) (e : HostEvent) : State := { s with hostQ := [e] }

/-- A write of the word `v` to `CMD`, for a window at address 0. -/
def cmd (v : Word) : HostEvent := .write .w32 0 v

/-- A state with a padded message meets the invariant. -/
theorem padded_inv : padded.Inv where
  par_ok := by decide
  msg_ok := by decide
  key_cap := by decide
  pb_blocks := by decide
  pb_fits := by decide
  sched_full := by decide
  work_hash := by decide
  err_off := by decide
  err_on := by decide

theorem pending_inv (s : State) (e : HostEvent) (h : s.Inv) : (pending s e).Inv :=
  ⟨h.par_ok, h.msg_ok, h.key_cap, h.pb_blocks, h.pb_fits, h.sched_full, h.work_hash, h.err_off, h.err_on⟩

theorem witness_DecodeOfEncode : (Instr.msgBits 1 1).wellFormed = true ∧ (Instr.msgBits 8 0xFF).wellFormed = true ∧
    (Instr.compress 0xFFFF).wellFormed = true := by decide
theorem witness_EncodeOfDecode : decode 0x12000305 = .ok (.msgBits 3 5) ∧ decode 0x2600FFFF = .ok (.compress 0xFFFF) := ⟨rfl, rfl⟩
theorem witness_OpcodeMapDecides : (0x26000000, 0xFFFF0000) ∈ opcodeMap ∧ selectsRow 0x2600FFFF (0x26000000, 0xFFFF0000) = true := by
  decide
theorem witness_StepRunsDecodedCommand : State.reset.fault = false ∧ decode 0x30000000 = .ok .hash ∧
    (pending State.reset (cmd 0x30000000)).hostQ = .write .w32 State.reset.par.base 0x30000000 :: [] := ⟨rfl, rfl, rfl⟩
theorem witness_IllegalWordRaises : State.reset.fault = false ∧ decode 0x02000000 = .error .reservedOpcode ∧
    (pending State.reset (cmd 0x02000000)).hostQ = .write .w32 State.reset.par.base 0x02000000 :: [] := ⟨rfl, rfl, rfl⟩
theorem witness_FaultStateDropsCommands : faulted.fault = true ∧
    (0x01000001 : Word) ≠ 0x01000000 ∧ (pending faulted (cmd 0x01000001)).hostQ = .write .w32 faulted.par.base 0x01000001 :: [] ∧
    (pending faulted (cmd 0x01000000)).hostQ = .write .w32 faulted.par.base 0x01000000 :: [] ∧
    readReg .errCause (pending faulted (.read .w32 8)) = some 1 ∧
    (pending faulted (.read .w32 8)).hostQ = .read .w32 (faulted.par.base + HostReg.offset .errCause) :: [] :=
  ⟨rfl, by decide, rfl, rfl, rfl, rfl⟩
theorem witness_FaultStateLeftByResetOnly : (pending faulted .powerOn).fault = true ∧
    ∃ t, step (pending faulted .powerOn) = .next t ∧ t.fault = false := ⟨rfl, _, rfl, rfl⟩
theorem witness_ErrorsArePrecise : (pending State.reset (cmd 0x31000000)).fault = false ∧
    (pending State.reset (cmd 0x31000000)).hostQ = .write .w32 State.reset.par.base 0x31000000 :: [] ∧
    ∃ t, step (pending State.reset (cmd 0x31000000)) = .next t ∧ t.fault = true := ⟨rfl, rfl, _, rfl, rfl⟩
theorem witness_EventsTakeEffectInOrder : ∃ t, step (pending State.reset (cmd 0x20000000)) = .next t ∧
    (pending State.reset (cmd 0x20000000)).hostQ = cmd 0x20000000 :: [] ∧ State.reset.hostQ = [] := ⟨_, rfl, rfl, rfl⟩
theorem witness_ConfigurationNeverChanges : (∃ t, step (pending padded (cmd 0x01000000)) = .next t) ∧
    ({ State.reset with par := { msgCap := 0xFFFFFFFF, keyCap := 1, base := 0x200 } } : State).par.ok = true :=
  ⟨⟨_, rfl⟩, by decide⟩
theorem witness_AccessesHaveNoSideEffect :
    (pending padded (.read .w32 0x20)).hostQ = .read .w32 (padded.par.base + HostReg.offset .nblk) :: [] ∧
    readReg .nblk padded = some 1 ∧
    (pending padded (.read .w32 0x1FC)).hostQ = .read .w32 (padded.par.base + HostReg.offset (.w 63)) :: [] ∧
    readReg (.w 63) padded = none ∧ HostReg.status ≠ .cmd ∧
    (pending padded (.write .w32 4 1)).hostQ = .write .w32 (padded.par.base + HostReg.offset .status) 1 :: [] := by
  decide
theorem witness_UndefinedAccessesRefused :
    ((.w8 : AccessWidth) ≠ .w32) ∧ (2 % 4 ≠ 0) ∧ (0x030 ≤ 0x030 ∧ 0x030 ≤ 0x03F) ∧ (0x0A0 ≤ 0x0FC ∧ 0x0FC ≤ 0x0FF) ∧ 0x200 ≤ 0x200 ∧
    (pending padded (.read .w8 4)).hostQ = .read .w8 (padded.par.base + 4) :: [] ∧
    (pending padded (.write .w32 0x200 0)).hostQ = .write .w32 (padded.par.base + 0x200) 0 :: [] := by decide
theorem witness_CountRegisters : padded.Inv := padded_inv
theorem witness_ResetState : (∃ t, exec .sreset faulted = .next t) ∧ (pending faulted .powerOn).hostQ = .powerOn :: [] ∧
    ∃ t, step (pending faulted .powerOn) = .next t := ⟨⟨_, rfl⟩, rfl, _, rfl⟩
theorem witness_SresetEqualsPowerOn : (pending padded .powerOn).hostQ = .powerOn :: [] := rfl
theorem witness_ResetMeetsInv : Params.ok { msgCap := 1, keyCap := 1, base := 0x200 } = true ∧
    Params.ok { msgCap := 0xFFFFFFFF, keyCap := 0xFFFFFFFF, base := 0 } = true := by decide
theorem witness_StepKeepsInv : (pending padded (cmd 0x20000000)).Inv ∧ ∃ t, step (pending padded (cmd 0x20000000)) = .next t :=
  ⟨pending_inv _ _ padded_inv, _, rfl⟩
theorem witness_InvStatesAreNeverStuck : (pending padded (cmd 0x30000000)).Inv := pending_inv _ _ padded_inv
theorem witness_NopAndClearsComplete : keyed.fault = false := rfl
theorem witness_MsgByteAppends :
    let s := { full with msg := { data := [1, 1, 1], tv := 0, tc := 0 } }
    s.fault = false ∧ s.msg.tv.toNat < 2 ^ s.msg.tc.val ∧ 8 * s.msg.data.length + s.msg.tc.val + 8 ≤ 8 * s.par.msgCap := by
  decide
theorem witness_MsgBitsAppends :
    let s := { full with msg := { data := [1, 1, 1], tv := 127, tc := 7 } }
    s.fault = false ∧ s.msg.tv.toNat < 2 ^ s.msg.tc.val ∧ (1 : Byte).toNat < 2 ^ 1 ∧
      8 * s.msg.data.length + s.msg.tc.val + 1 ≤ 8 * s.par.msgCap := by decide
theorem witness_MsgBitsAppends_eight : State.reset.fault = false ∧ State.reset.msg.tv.toNat < 2 ^ State.reset.msg.tc.val ∧
    (0xFF : Byte).toNat < 2 ^ 8 ∧
    8 * State.reset.msg.data.length + State.reset.msg.tc.val + 8 ≤ 8 * State.reset.par.msgCap := by decide
theorem witness_MsgFullRaises : full.fault = false ∧
    8 * full.par.msgCap < 8 * full.msg.data.length + full.msg.tc.val + 8 ∧ (1 : Byte).toNat < 2 ^ 1 ∧
    8 * full.par.msgCap < 8 * full.msg.data.length + full.msg.tc.val + 1 := by decide
theorem witness_KeyByteAppendsOrRaises : full.fault = false ∧ full.key.length = full.par.keyCap ∧ keyed.fault = false ∧
    keyed.key.length < keyed.par.keyCap := by decide
theorem witness_PadBitLayout :
    ({ data := List.replicate 55 0, tv := 0, tc := 7 } : BitBuffer).lenBits ≤ 447 ∧
    448 ≤ ({ data := List.replicate 56 0, tv := 0, tc := 0 } : BitBuffer).lenBits ∧
    ({ data := List.replicate 119 0, tv := 0, tc := 7 } : BitBuffer).lenBits ≤ 959 := by decide
theorem witness_MsgPadStoresPaddedCopy : padded.fault = false ∧ padded.msg.ok padded.par.msgCap = true ∧
    ({ data := [], tv := 1, tc := 0 } : BitBuffer).ok padded.par.msgCap = false := by decide
theorem witness_BufferCommandsIgnoreTheFiles : (∃ t, exec .msgClear working = .next t) ∧
    (∃ t, exec (.keyByte 1) working = .next t) ∧ (∃ t, exec (.msgBits 1 1) working = .next t) :=
  ⟨⟨_, rfl⟩, ⟨_, rfl⟩, ⟨_, rfl⟩⟩
theorem witness_HostLoadsBuildTheMessage : full.fault = false ∧ [1, 2, 3, (4 : Byte)].length ≤ full.par.msgCap ∧
    8 * State.reset.msg.data.length + State.reset.msg.tc.val + [true, false, true].length ≤ 8 * State.reset.par.msgCap := by
  decide
theorem witness_WordFunctions : (1 ≤ 31 ∧ 31 ≤ 31) ∧ 31 < 32 := by decide
theorem witness_HashStateMoves : loaded.fault = false ∧ loaded.hv = true := ⟨rfl, rfl⟩
theorem witness_BlkLoadGroupsBlock : padded.fault = false ∧ padded.pbv = true ∧ (0 : BitVec 16).toNat < padded.pb.length / 64 ∧
    (15 : Fin 64).val < 16 ∧ 16 ≤ (16 : Fin 64).val := by decide
theorem witness_SchedExpands : loaded.fault = false ∧ loaded.wv ≠ .none := by decide
theorem witness_RoundComputes : working.fault = false ∧ working.wkv = true ∧ working.wv = .full ∧ (63 : Fin 65).val < 64 ∧
    working.rc.val < 64 ∧ working.wk = #v[0x6A09E667, 0xBB67AE85, 0x3C6EF372, 0xA54FF53A, 0x510E527F, 0x9B05688C, 0x1F83D9AB,
      0x5BE0CD19] := ⟨rfl, rfl, rfl, by decide, by decide, rfl⟩
theorem witness_FoldAdds : rounded.fault = false ∧ rounded.wkv = true ∧ rounded.hv = true ∧ rounded.rc.val = 64 :=
  ⟨rfl, rfl, rfl, rfl⟩
theorem witness_CompressComputes : loaded.fault = false ∧ loaded.pbv = true ∧ (0 : BitVec 16).toNat < loaded.pb.length / 64 ∧
    loaded.hv = true := by decide
theorem witness_HashComputesSha256 : padded.fault = false ∧ padded.msg.ok padded.par.msgCap = true ∧
    ({ data := [], tv := 4, tc := 2 } : BitBuffer).ok padded.par.msgCap = false := by decide
theorem witness_HashEqualsSequence : padded.fault = false ∧ padded.msg.ok padded.par.msgCap = true ∧
    (pad padded.msg).length / 64 ≤ 65536 := by
  refine ⟨rfl, by decide, ?_⟩
  rw [pad_length]
  decide
theorem witness_ResultsDependOnBuffersOnly : ∃ t t', padded.fault = false ∧ working.fault = false ∧ padded.msg = working.msg ∧
    exec .hash padded = .next t ∧ exec .hash working = .next t' :=
  ⟨_, _, rfl, rfl, rfl, (Did.hash padded (by decide)).exec, (Did.hash working (by decide)).exec⟩
theorem witness_ResultsDependOnBuffersOnly_hmac : ∃ t t', keyed.msg = { keyed with hv := true }.msg ∧
    keyed.key = { keyed with hv := true }.key ∧ exec .hmac keyed = .next t ∧ exec .hmac { keyed with hv := true } = .next t' ∧
    t.dv = true ∧ t.fault = false :=
  ⟨_, _, rfl, rfl, (Did.hmac keyed (by decide) rfl).exec, (Did.hmac { keyed with hv := true } (by decide) rfl).exec, rfl, rfl⟩
theorem witness_BlockErrors : State.reset.fault = false ∧ State.reset.pbv = false ∧ padded.fault = false ∧ padded.pbv = true ∧
    padded.pb.length / 64 ≤ (1 : BitVec 16).toNat := by decide
theorem witness_UninitErrors : State.reset.fault = false ∧ State.reset.wv = .none ∧ State.reset.hv = false ∧
    State.reset.wkv = false ∧ padded.fault = false ∧ padded.pbv = true ∧ (0 : BitVec 16).toNat < padded.pb.length / 64 ∧
    padded.hv = false := by decide
theorem witness_SequenceErrors : rounded.fault = false ∧ rounded.wkv = true ∧ rounded.wv = .full ∧ rounded.rc.val = 64 ∧
    rounded.hv = true ∧ { rounded with rc := 63 }.rc.val ≠ 64 := ⟨rfl, rfl, rfl, rfl, rfl, by decide⟩
theorem witness_ErrorsComeFromTheirCommands : State.reset.fault = false ∧ ∃ t, exec .digest State.reset = .next t ∧ t.fault = true :=
  ⟨rfl, _, rfl, rfl⟩
theorem witness_HmacComputes : keyed.fault = false ∧ keyed.key ≠ [] ∧ keyed.msg.tc = 0 := by decide
theorem witness_HmacFunction : (List.replicate 64 (0x61 : Byte)).length ≤ 64 ∧ (List.replicate 63 (0x61 : Byte)).length < 64 ∧
    64 < (List.replicate 65 (0x61 : Byte)).length := by decide
theorem witness_HmacErrors : State.reset.fault = false ∧ State.reset.key = [] ∧ keyed.key ≠ [] ∧
    ({ keyed.msg with tv := 1, tc := 1 } : BitBuffer).tc ≠ 0 := by decide
theorem witness_WholeCallsCompute : full.fault = false ∧ [1, 2, 3, (4 : Byte)].length ≤ full.par.msgCap ∧ [(7 : Byte)] ≠ [] ∧
    [(7 : Byte)].length ≤ full.par.keyCap := by decide
theorem witness_WrittenByTheirCommandsOnly : ∃ t, exec .hInit keyed = .next t := ⟨_, rfl⟩
theorem witness_KeyContentsStaySecret : SameButKey (pending keyed (cmd 0x30000000)) { pending keyed (cmd 0x30000000) with
      key := [1, 2, 3, 4, 5, 6] } ∧ (pending keyed (cmd 0x30000000)).hostQ = cmd 0x30000000 :: [] ∧
    cmd 0x30000000 ≠ .write .w32 keyed.par.base 0x31000000 ∧ ∃ t, step (pending keyed (cmd 0x30000000)) = .next t := by
  refine ⟨⟨[1, 2, 3, 4, 5, 6], rfl, rfl⟩, rfl, by decide, ?_⟩
  rw [step_cmd _ 0x30000000 [] rfl, cmdWrite_run _ _ rfl, runCommand_ok _ .hash _ rfl]
  exact ⟨_, (Did.hash _ (by decide)).exec⟩
theorem witness_InvalidElementsAreNeverConsumed :
    SameLive (pending State.reset (cmd 0x20000000)) { pending State.reset (cmd 0x20000000) with h := iv, pb := abcBlock, w := abcLow } ∧
    ∃ t, step (pending State.reset (cmd 0x20000000)) = .next t := by
  refine ⟨?_, _, rfl⟩
  constructor <;> first | rfl | exact fun _ h => absurd (show false = true from h) (by decide) | (intro h; cases h)

end Sys2Proof.Tests
end

/-! # Elements that are not valid are never consumed

Two states that agree on their valid elements (`SameLive`, R12, R30) are taken along together: first one rule per operation over
State, then what such states read alike, then the layers of a step from the command up to the port. -/
section
namespace Sys2Proof.Machine

variable {s s' t : State}

/-! ### One rule per operation -/

theorem SameLive.setMsg (h : SameLive s s') (m : BitBuffer) : SameLive (s.setMsg m) (s'.setMsg m) := { h with msg := rfl }

theorem SameLive.setKey (h : SameLive s s') (k : List Byte) : SameLive (s.setKey k) (s'.setKey k) := { h with key := rfl }

theorem SameLive.setPadded (h : SameLive s s') (p : List Byte) : SameLive (s.setPadded p) (s'.setPadded p) :=
  { h with pbv := rfl, pb := fun _ => rfl }

theorem SameLive.setHash (h : SameLive s s') (x : Vector Word 8) : SameLive (s.setHash x) (s'.setHash x) :=
  { h with hv := rfl, h := fun _ => rfl }

/-- The two new schedules need to agree only where `WV` says they are valid. -/
theorem SameLive.setSched (h : SameLive s s') {x x' : Vector Word 64} {v : SchedValid}
    (hx : ∀ i : Fin 64, schedWordValid (s.setSched x v) i.val = true → x[i] = x'[i]) :
    SameLive (s.setSched x v) (s'.setSched x' v) :=
  { h with wv := rfl, w := hx }

theorem SameLive.setWork (h : SameLive s s') (x : Vector Word 8) (n : Fin 65) : SameLive (s.setWork x n) (s'.setWork x n) :=
  { h with wkv := rfl, wk := fun _ => rfl, rc := rfl }

theorem SameLive.dropWork (h : SameLive s s') : SameLive s.dropWork s'.dropWork := { h with wkv := rfl, wk := nofun }

/-- Working registers that are dropped at once need not agree: nothing reads them from then on (R30; log 6). -/
theorem SameLive.setWork_dropWork (h : SameLive s s') (x x' : Vector Word 8) (n : Fin 65) :
    SameLive (s.setWork x n).dropWork (s'.setWork x' n).dropWork :=
  { h with wkv := rfl, wk := nofun, rc := rfl }

theorem SameLive.setDigest (h : SameLive s s') (x : Vector Word 8) : SameLive (s.setDigest x) (s'.setDigest x) :=
  { h with dv := rfl, dg := fun _ => rfl }

theorem SameLive.dropAll (h : SameLive s s') : SameLive s.dropAll s'.dropAll :=
  { h with pbv := rfl, pb := nofun, hv := rfl, h := nofun, wv := rfl, w := nofun, wkv := rfl, wk := nofun, rc := rfl }

theorem SameLive.setQueue (h : SameLive s s') (q : List HostEvent) : SameLive (s.setQueue q) (s'.setQueue q) :=
  { h with hostQ := rfl }

theorem SameLive.setRead (h : SameLive s s') (v : Word) : SameLive (s.setRead v) (s'.setRead v) := { h with rdata := rfl }

/-- Equal counts of draws draw equal free words (log 4). -/
theorem SameLive.drawRead (h : SameLive s s') : SameLive s.drawRead s'.drawRead :=
  { h with rdata := congrArg Config.freeWord h.draws, draws := congrArg (· + 1) h.draws }

theorem SameLive.raise (h : SameLive s s') (c : ErrCode) (v : Word) : SameLive (s.raise c v) (s'.raise c v) :=
  { h with fault := rfl, errCause := rfl, errCmd := rfl }

theorem SameLive.softReset (h : SameLive s s') : SameLive s.softReset s'.softReset :=
  { h with
    msg := rfl, key := rfl, pbv := rfl, pb := nofun, hv := rfl, h := nofun, wv := rfl, w := nofun, wkv := rfl, wk := nofun
    rc := rfl, dv := rfl, dg := nofun, fault := rfl, errCause := rfl, errCmd := rfl }

/-! ### What two such states have in common -/

theorem SameLive.schedWordValid_eq (h : SameLive s s') (i : Nat) : schedWordValid s i = schedWordValid s' i := by
  simp only [schedWordValid, h.wv]

theorem SameLive.wordAt_eq (h : SameLive s s') {i : Nat} (hi : i < 64) (hv : schedWordValid s i = true) :
    wordAt s.w i = wordAt s'.w i := by
  rw [Machine.wordAt_eq _ i hi, Machine.wordAt_eq _ i hi]
  exact h.w ⟨i, hi⟩ hv

/-- The expansion reads `W[0..15]` only, which are valid as soon as any word of `W` is (R26, R163). -/
theorem SameLive.expand_eq (h : SameLive s s') (hv : s.wv ≠ .none) : expand s.w = expand s'.w := by
  refine expand_congr _ _ fun i hi => h.wordAt_eq (by omega) ?_
  cases hw : s.wv with
  | none => exact absurd hw hv
  | lo => simp only [schedWordValid, hw, hi, decide_true]
  | full => simp only [schedWordValid, hw]

theorem SameLive.nblk_eq (h : SameLive s s') : nblk s = nblk s' := by
  unfold nblk
  rw [← h.pbv]
  exact ite_congr rfl (fun hp => by rw [h.pb hp]) fun _ => rfl

theorem SameLive.statusWord_eq (h : SameLive s s') : statusWord s = statusWord s' := by
  simp only [statusWord, h.dv, h.wkv, h.wv, h.hv, h.pbv, h.fault]

/-- A register reads the same in both, or is a free draw in both (R12). -/
theorem SameLive.readReg_eq (h : SameLive s s') (r : HostReg) : readReg r s = readReg r s' := by
  cases r with
  | cmd | id => rfl
  | status => simp only [readReg, h.statusWord_eq]
  | errCause => simp only [readReg, h.errCause]
  | errCmd => simp only [readReg, h.errCmd]
  | msgLenLo | msgLenHi => simp only [readReg, h.msg]
  | keyLen => simp only [readReg, h.key]
  | rc => simp only [readReg, h.rc]
  | nblk => simp only [readReg, h.nblk_eq]
  | msgCap | keyCap => simp only [readReg, h.par]
  | h i =>
    simp only [readReg, ← h.hv]
    exact ite_congr rfl (fun hv => by rw [h.h hv]) fun _ => rfl
  | wk i =>
    simp only [readReg, ← h.wkv]
    exact ite_congr rfl (fun hv => by rw [h.wk hv]) fun _ => rfl
  | dg i =>
    simp only [readReg, ← h.dv]
    exact ite_congr rfl (fun hv => by rw [h.dg hv]) fun _ => rfl
  | w i =>
    simp only [readReg, ← h.schedWordValid_eq]
    exact ite_congr rfl (fun hv => by rw [h.w i hv]) fun _ => rfl

theorem SameLive.hostRead (h : SameLive s s') (r : HostReg) : SameLive (hostRead r s) (hostRead r s') := by
  unfold Machine.hostRead
  rw [← h.readReg_eq r]
  cases readReg r s with
  | some v => exact h.setRead v
  | none => exact h.drawRead

/-! ### Commands -/

/-- `blk.load` writes the words it makes valid from the block alone (R162). -/
theorem SameLive.setSched_loadLow (h : SameLive s s') (ws : List Word) :
    SameLive (s.setSched (loadLow s.w ws) .lo) (s'.setSched (loadLow s'.w ws) .lo) :=
  h.setSched fun i hv => by
    have hi : i.val < 16 := by simpa [schedWordValid] using hv
    simp [loadLow, hi]

/-- The body of `compress` reads `PB` and `H`, and whatever `W` and `WK` held is overwritten (R167). -/
theorem SameLive.compressBody (h : SameLive s s') (hp : s.pbv = true) (hh : s.hv = true) (b : Nat) :
    SameLive (compressBody b s) (compressBody b s') := by
  unfold Machine.compressBody
  rw [← h.pb hp, ← h.h hh, expand_loadLow s'.w s.w]
  exact (((h.setSched fun _ _ => rfl).setWork _ _).setHash _).dropWork

/-- What `hash` writes (R176), as the operations that write it. -/
theorem hash_writes_eq (s : State) (p : List Byte) (d wk : Vector Word 8) (w : Vector Word 64) :
    { s with
      pb := p, pbv := true, h := d, hv := true, w := w, wv := .full, wk := wk, wkv := false, rc := 64, dg := d, dv := true } =
      ((((s.setPadded p).setHash d).setSched w .full).setWork wk 64).dropWork.setDigest d := rfl

/-- The conditions of the errors read valid bits, lengths and counters only (R231). -/
theorem SameLive.raised {i : Instr} {c : ErrCode} (h : SameLive s s') (r : Raised i s c) : Raised i s' c := by
  cases r with
  | msgByte _ b hf => exact .msgByte s' b (h.msg ▸ h.par ▸ hf)
  | msgBits _ n val hf => exact .msgBits s' n val (h.msg ▸ h.par ▸ hf)
  | keyByte _ b hf => exact .keyByte s' b (h.key ▸ h.par ▸ hf)
  | blkLoadPad _ blk hp => exact .blkLoadPad s' blk (h.pbv ▸ hp)
  | blkLoadRange _ blk hp hb => exact .blkLoadRange s' blk (h.pbv ▸ hp) (h.pb hp ▸ hb)
  | sched _ hw => exact .sched s' (h.wv ▸ hw)
  | wkLoad _ hh => exact .wkLoad s' (h.hv ▸ hh)
  | roundUninit _ hu => exact .roundUninit s' (h.wkv ▸ h.wv ▸ hu)
  | roundSeq _ hk hw hr => exact .roundSeq s' (h.wkv ▸ hk) (h.wv ▸ hw) (h.rc ▸ hr)
  | foldUninit _ hu => exact .foldUninit s' (h.wkv ▸ h.hv ▸ hu)
  | foldSeq _ hk hh hr => exact .foldSeq s' (h.wkv ▸ hk) (h.hv ▸ hh) (h.rc ▸ hr)
  | compressPad _ blk hp => exact .compressPad s' blk (h.pbv ▸ hp)
  | compressRange _ blk hp hb => exact .compressRange s' blk (h.pbv ▸ hp) (h.pb hp ▸ hb)
  | compressUninit _ blk hp hb hh => exact .compressUninit s' blk (h.pbv ▸ hp) (h.pb hp ▸ hb) (h.hv ▸ hh)
  | digest _ hh => exact .digest s' (h.hv ▸ hh)
  | hmacKey _ hk => exact .hmacKey s' (h.key ▸ hk)
  | hmacTail _ hk hm => exact .hmacTail s' (h.key ▸ hk) (h.msg ▸ hm)

/-- The effect of a command is computed from valid elements: each command has it in the other state too, and what it writes there
and calls valid is the same. -/
theorem SameLive.did {i : Instr} (h : SameLive s s') (d : Did i s t) : ∃ t', Did i s' t' ∧ SameLive t t' := by
  cases d with
  | nop => exact ⟨_, .nop s', h⟩
  | sreset => exact ⟨_, .sreset s', h.softReset⟩
  | msgClear => exact ⟨_, .msgClear s', h.setMsg _⟩
  | msgByte _ b hf => exact ⟨_, .msgByte s' b (h.msg ▸ h.par ▸ hf), h.msg ▸ h.setMsg _⟩
  | msgBits _ n val hf => exact ⟨_, .msgBits s' n val (h.msg ▸ h.par ▸ hf), h.msg ▸ h.setMsg _⟩
  | msgPad _ ho => exact ⟨_, .msgPad s' (h.msg ▸ h.par ▸ ho), h.msg ▸ h.setPadded _⟩
  | keyClear => exact ⟨_, .keyClear s', h.setKey _⟩
  | keyByte _ b hf => exact ⟨_, .keyByte s' b (h.key ▸ h.par ▸ hf), h.key ▸ h.setKey _⟩
  | hInit => exact ⟨_, .hInit s', h.setHash _⟩
  | blkLoad _ blk hp hb =>
    refine ⟨_, .blkLoad s' blk (h.pbv ▸ hp) (h.pb hp ▸ hb), ?_⟩
    rw [← h.pb hp]
    exact h.setSched_loadLow _
  | sched _ hw =>
    refine ⟨_, .sched s' (h.wv ▸ hw), ?_⟩
    rw [h.expand_eq hw]
    exact h.setSched fun _ _ => rfl
  | wkLoad _ hh => exact ⟨_, .wkLoad s' (h.hv ▸ hh), h.h hh ▸ h.setWork _ _⟩
  | round _ hk hw hr =>
    have hword : wordAt s.w s.rc.val = wordAt s'.w s.rc.val := h.wordAt_eq (by omega) (by simp only [schedWordValid, hw])
    refine ⟨_, .round s' (h.wkv ▸ hk) (h.wv ▸ hw) (h.rc ▸ hr), ?_⟩
    rw [← h.wk hk, ← h.rc, hword]
    exact h.setWork _ _
  | fold _ hk hh hr =>
    refine ⟨_, .fold s' (h.wkv ▸ hk) (h.hv ▸ hh) (h.rc ▸ hr), ?_⟩
    rw [← h.h hh, ← h.wk hk]
    exact (h.setHash _).dropWork
  | compress _ blk hp hb hh =>
    exact ⟨_, .compress s' blk (h.pbv ▸ hp) (h.pb hp ▸ hb) (h.hv ▸ hh), h.compressBody hp hh _⟩
  | digest _ hh => exact ⟨_, .digest s' (h.hv ▸ hh), h.h hh ▸ h.setDigest _⟩
  | hash _ ho =>
    have hw : (hashRun s).w = (hashRun s').w := by rw [hashRun_w, hashRun_w, h.msg]
    refine ⟨_, .hash s' (h.msg ▸ h.par ▸ ho), ?_⟩
    rw [hash_writes_eq, hash_writes_eq, ← h.msg, ← hw]
    exact (((h.setPadded _).setHash _).setSched fun _ _ => rfl).setWork_dropWork _ _ 64 |>.setDigest _
  | hmac _ hk hm =>
    refine ⟨_, .hmac s' (h.key ▸ hk) (h.msg ▸ hm), ?_⟩
    rw [← h.key, ← h.msg]
    exact (h.setDigest _).dropAll

/-! ### The layers of a step -/

/-- `f` consumes no element that is not valid: from two states that agree on the valid elements it answers states that do. -/
def KeepsSameLive (f : State → Host.Outcome State Fault Refusal) : Prop :=
  ∀ s s' t : State, SameLive s s' → f s = .next t → ∃ t' : State, f s' = .next t' ∧ SameLive t t'

theorem exec_keepsSameLive (i : Instr) : KeepsSameLive (exec i) := by
  intro s s' t h e
  obtain d | ⟨c, rfl, r⟩ := exec_next i s t e
  · obtain ⟨t', d', h'⟩ := h.did d
    exact ⟨t', d'.exec, h'⟩
  · exact ⟨_, (h.raised r).exec, h.raise c _⟩

theorem runCommand_keepsSameLive (v : Word) : KeepsSameLive (runCommand v) := by
  intro s s' t h e
  unfold runCommand at e ⊢
  cases hd : decode v with
  | ok i => rw [hd] at e; exact exec_keepsSameLive i s s' t h e
  | error x => rw [hd] at e; cases e; exact ⟨_, rfl, h.raise _ _⟩

/-- Whether a command is dropped hangs on `FAULT` and on the word alone (R241). -/
theorem cmdWrite_keepsSameLive (v : Word) : KeepsSameLive (cmdWrite v) := by
  intro s s' t h e
  unfold cmdWrite at e ⊢
  rw [← h.fault]
  split at e
  case isTrue hf => cases e; exact ⟨s', if_pos hf, h⟩
  case isFalse hf => rw [if_neg hf]; exact runCommand_keepsSameLive v s s' t h e

theorem hostWrite_keepsSameLive (r : HostReg) (v : Word) : KeepsSameLive (hostWrite r v) := by
  intro s s' t h e
  unfold hostWrite at e ⊢
  split at e
  case isTrue hr => rw [if_pos hr]; exact cmdWrite_keepsSameLive v s s' t h e
  case isFalse hr => cases e; exact ⟨s', if_neg hr, h⟩

theorem hostEvent_keepsSameLive (ev : HostEvent) : KeepsSameLive (hostEvent ev) := by
  intro s s' t h e
  cases ev with
  | read width addr =>
    simp only [hostEvent, ← h.par] at e ⊢
    cases hl : locate s.par width addr with
    | ok r => rw [hl] at e; cases e; exact ⟨_, rfl, h.hostRead r⟩
    | error x => rw [hl] at e; cases e
  | write width addr v =>
    simp only [hostEvent, ← h.par] at e ⊢
    cases hl : locate s.par width addr with
    | ok r => rw [hl] at e; exact hostWrite_keepsSameLive r v s s' t h e
    | error x => rw [hl] at e; cases e
  | powerOn => cases e; exact ⟨_, rfl, h.softReset⟩

/-- Both states take the same event, since the events to come are part of what they agree on. -/
theorem step_keepsSameLive : KeepsSameLive step := by
  intro s s' t h e
  cases hq : s.hostQ with
  | nil =>
    rw [step_nil s hq] at e
    cases e
    exact ⟨s', step_nil s' (h.hostQ ▸ hq), h⟩
  | cons ev rest =>
    rw [step_cons s ev rest hq] at e
    rw [step_cons s' ev rest (h.hostQ ▸ hq)]
    exact hostEvent_keepsSameLive ev _ _ t (h.setQueue rest) e

/-- Settles O59: every layer of a step keeps the agreement on valid elements. -/
theorem invalidElementsAreNeverConsumed : Obligations.InvalidElementsAreNeverConsumed := step_keepsSameLive

end Sys2Proof.Machine
end

/-! # What the body of `compress` leaves unchanged

One lemma per field, as the laws of the operations over State give them (R167). -/
section
namespace Sys2Proof.Machine

variable (b : Nat) (s : State)

@[simp] theorem compressBody_msg : (compressBody b s).msg = s.msg := by simp [compressBody]
@[simp] theorem compressBody_key : (compressBody b s).key = s.key := by simp [compressBody]
@[simp] theorem compressBody_pb : (compressBody b s).pb = s.pb := by simp [compressBody]
@[simp] theorem compressBody_pbv : (compressBody b s).pbv = s.pbv := by simp [compressBody]
@[simp] theorem compressBody_dg : (compressBody b s).dg = s.dg := by simp [compressBody]
@[simp] theorem compressBody_dv : (compressBody b s).dv = s.dv := by simp [compressBody]
@[simp] theorem compressBody_par : (compressBody b s).par = s.par := by simp [compressBody]

end Sys2Proof.Machine
end

/-! # What a step can do

Every next state of a step is one of a few kinds (`Effect`); a rule over all steps is proved by one split on them. -/
section
namespace Sys2Proof.Machine

/-- All that one event can leave of the state `s` from which the event is gone (R16, R65, R240, R241, R260): `s` itself (an ignored write,
a dropped command), `s` with what a read returned, the reset state, an error, or the effect of a command. -/
inductive Effect (s : State) : State → Prop where
  | idle : Effect s s
  | read (v : Word) : Effect s (s.setRead v)
  | draw : Effect s s.drawRead
  | reset : Effect s s.softReset
  | error (c : ErrCode) (v : Word) (hc : c ≠ .none) : Effect s (s.raise c v)
  | command (i : Instr) (t : State) (d : Did i s t) : Effect s t

variable {s t : State} {i : Instr}

theorem hostRead_effect (r : HostReg) (s : State) : Effect s (hostRead r s) := by
  obtain ⟨v, -, e⟩ | ⟨-, e⟩ := hostRead_cases r s <;> rw [e]
  · exact .read v
  · exact .draw

theorem exec_effect (h : exec i s = .next t) : Effect s t := by
  obtain d | ⟨c, rfl, r⟩ := exec_next i s t h
  · exact .command i t d
  · exact .error c _ r.ne_none

theorem cmdWrite_effect {v : Word} (h : cmdWrite v s = .next t) : Effect s t := by
  obtain ⟨-, -, e⟩ | ⟨-, ⟨i, -, e⟩ | ⟨x, -, e⟩⟩ := cmdWrite_cases v s <;> rw [e] at h
  · cases h; exact .idle
  · exact exec_effect h
  · cases h; exact .error .illegal v nofun

theorem hostEvent_effect {e : HostEvent} (h : hostEvent e s = .next t) : Effect s t := by
  obtain ⟨_, _, r, -, -, e⟩ | ⟨_, _, _, _, -, -, -, e⟩ | ⟨_, _, v, -, -, e⟩ | ⟨-, e⟩ | ⟨x, e⟩ := hostEvent_cases e s <;>
    rw [e] at h
  · cases h; exact hostRead_effect r s
  · cases h; exact .idle
  · exact cmdWrite_effect h
  · cases h; exact .reset
  · cases h

/-- With no event pending the queue is the one it was, and the effect is `idle` (R255). -/
theorem step_effect (h : step s = .next t) : ∃ q, Effect (s.setQueue q) t := by
  cases hq : s.hostQ with
  | nil => rw [step_nil s hq] at h; cases h; exact ⟨s.hostQ, .idle⟩
  | cons e rest => rw [step_cons s e rest hq] at h; exact ⟨rest, hostEvent_effect h⟩

end Sys2Proof.Machine
end

/-! # The parameters never change -/
section
namespace Sys2Proof.Machine

variable {s t : State} {i : Instr}

theorem Did.par_eq (d : Did i s t) : t.par = s.par := by cases d <;> simp

theorem Effect.par_eq (e : Effect s t) : t.par = s.par := by
  cases e with
  | command i _ d => exact d.par_eq
  | _ => rfl

theorem step_par_eq (h : step s = .next t) : t.par = s.par := by
  obtain ⟨q, e⟩ := step_effect h
  exact e.par_eq

/-- The capacities fit a register (R6, R7, R59). -/
theorem caps_lt_of_ok {p : Params} (h : p.ok = true) : p.msgCap < 2 ^ 32 ∧ p.keyCap < 2 ^ 32 := by
  simp only [Params.ok, Bool.and_eq_true, decide_eq_true_eq] at h
  omega

/-- Settles O11: no effect of a step writes the parameters, which `MSG_CAP` and `KEY_CAP` read. -/
theorem configurationNeverChanges : Obligations.ConfigurationNeverChanges := by
  refine ⟨fun s t h => ?_, fun s h => ?_⟩
  · have hp := step_par_eq h
    exact ⟨hp, rfl, by simp only [readReg, hp], by simp only [readReg, hp]⟩
  · obtain ⟨hm, hk⟩ := caps_lt_of_ok h
    exact ⟨_, _, rfl, Nat.mod_eq_of_lt hm, rfl, Nat.mod_eq_of_lt hk⟩

end Sys2Proof.Machine
end

/-! # The invariant: one rule per operation over State, then the commands, then the step -/
section
namespace Sys2Proof.Machine

variable {s t : State} {i : Instr}

/-- `pad` leaves whole blocks, and no more than the longest message that fits pads to (R24, R142). -/
theorem pad_fits {cap : Nat} {m : BitBuffer} (h : m.ok cap = true) :
    (0 < (pad m).length ∧ (pad m).length % 64 = 0) ∧ (pad m).length / 64 ≤ (8 * cap + 64) / 512 + 1 := by
  have hl := ((BitBuffer.ok_iff cap m).mp h).2
  rw [pad_length]
  omega

theorem State.resetWith_inv {p : Params} (h : p.ok = true) : (State.resetWith p).Inv where
  par_ok := h
  msg_ok := empty_ok _
  key_cap := Nat.zero_le _
  pb_blocks := nofun
  pb_fits := nofun
  sched_full := nofun
  work_hash := nofun
  err_off _ := ⟨rfl, rfl⟩
  err_on := nofun

namespace State.Inv

theorem setMsg (h : s.Inv) {m : BitBuffer} (hm : m.ok s.par.msgCap = true) : (s.setMsg m).Inv := { h with msg_ok := hm }

theorem setKey (h : s.Inv) {k : List Byte} (hk : k.length ≤ s.par.keyCap) : (s.setKey k).Inv := { h with key_cap := hk }

theorem setPadded (h : s.Inv) {p : List Byte} (hb : 0 < p.length ∧ p.length % 64 = 0)
    (hf : p.length / 64 ≤ (8 * s.par.msgCap + 64) / 512 + 1) : (s.setPadded p).Inv :=
  { h with pb_blocks := fun _ => hb, pb_fits := fun _ => hf }

theorem setHash (h : s.Inv) (x : Vector Word 8) : (s.setHash x).Inv := { h with work_hash := fun _ => rfl }

theorem setSched (h : s.Inv) {x : Vector Word 64} {v : SchedValid} (hx : v = .full → expand x = x) : (s.setSched x v).Inv :=
  { h with sched_full := hx }

theorem setWork (h : s.Inv) (hh : s.hv = true) (x : Vector Word 8) (n : Fin 65) : (s.setWork x n).Inv :=
  { h with work_hash := fun _ => hh }

theorem dropWork (h : s.Inv) : s.dropWork.Inv := { h with work_hash := nofun }

theorem setDigest (h : s.Inv) (x : Vector Word 8) : (s.setDigest x).Inv := { h with }

theorem dropAll (h : s.Inv) : s.dropAll.Inv :=
  { h with pb_blocks := nofun, pb_fits := nofun, sched_full := nofun, work_hash := nofun }

theorem setQueue (h : s.Inv) (q : List HostEvent) : (s.setQueue q).Inv := { h with }

theorem setRead (h : s.Inv) (v : Word) : (s.setRead v).Inv := { h with }

theorem drawRead (h : s.Inv) : s.drawRead.Inv := { h with }

theorem raise (h : s.Inv) {c : ErrCode} (hc : c ≠ .none) (v : Word) : (s.raise c v).Inv :=
  { h with err_off := nofun, err_on := fun _ => hc }

theorem softReset (h : s.Inv) : s.softReset.Inv := { State.resetWith_inv h.par_ok with }

/-- The body of `compress` needs a valid `H` (R167). -/
theorem compressBody (h : s.Inv) (hh : s.hv = true) (b : Nat) : (compressBody b s).Inv := by
  unfold Machine.compressBody
  exact (((h.setSched fun _ => expand_expand _).setWork (by simpa using hh) _ _).setHash _).dropWork

theorem setPadded_pad (h : s.Inv) : (s.setPadded (pad s.msg)).Inv :=
  have ⟨hb, hf⟩ := pad_fits h.msg_ok
  h.setPadded hb hf

/-- What each command does keeps the invariant, under the conditions it checks. -/
theorem did (h : s.Inv) (d : Did i s t) : t.Inv := by
  cases d with
  | nop => exact h
  | sreset => exact h.softReset
  | msgClear => exact h.setMsg (empty_ok _)
  | msgByte _ b hf => exact h.setMsg (appendBits_ok _ _ _ h.msg_ok (byteBits_length b ▸ hf))
  | msgBits _ n val hf => exact h.setMsg (appendBits_ok _ _ _ h.msg_ok ((valBits_length n val).symm ▸ hf))
  | msgPad => exact h.setPadded_pad
  | keyClear => exact h.setKey (Nat.zero_le _)
  | keyByte _ b hf => exact h.setKey (by simpa using hf)
  | hInit => exact h.setHash _
  | blkLoad => exact h.setSched nofun
  | sched => exact h.setSched fun _ => expand_expand _
  | wkLoad _ hh => exact h.setWork hh _ _
  | round _ hk => exact h.setWork (h.work_hash hk) _ _
  | fold => exact (h.setHash _).dropWork
  | compress _ _ _ _ hh => exact h.compressBody hh _
  | digest => exact h.setDigest _
  | hash =>
    rw [hash_writes_eq]
    have hsched : (((s.setPadded (pad s.msg)).setHash (sha256 s.msg)).setSched (hashRun s).w .full).Inv :=
      (h.setPadded_pad.setHash _).setSched fun _ => (hashRun_spec s).2
    exact (hsched.setWork rfl _ 64).dropWork.setDigest _
  | hmac => exact (h.setDigest _).dropAll

theorem effect (h : s.Inv) (e : Effect s t) : t.Inv := by
  cases e with
  | idle => exact h
  | read v => exact h.setRead v
  | draw => exact h.drawRead
  | reset => exact h.softReset
  | error c v hc => exact h.raise hc v
  | command i _ d => exact h.did d

end State.Inv

/-- Settles O22: every effect of a step keeps each part of the invariant. -/
theorem stepKeepsInv : Obligations.StepKeepsInv := by
  intro s t h e
  obtain ⟨q, e⟩ := step_effect e
  exact (h.setQueue q).effect e

/-- Settles O21: the invariant holds in every reset state. -/
theorem resetMeetsInv : Obligations.ResetMeetsInv :=
  ⟨State.resetWith_inv (by decide), fun _ => State.resetWith_inv⟩

/-! ### The stuck state is unreachable -/

/-- A command faults on a message buffer that breaks R21 only (U16). -/
theorem exec_not_fault (h : s.msg.ok s.par.msgCap = true) (i : Instr) (x : Fault) : exec i s ≠ .fault x := by
  obtain ⟨t, e, -⟩ | ⟨c, e, -⟩ | ⟨-, hn, -⟩ := exec_cases i s
  · rw [e]; nofun
  · rw [e]; nofun
  · exact absurd h (by simp [hn])

theorem cmdWrite_not_fault (h : s.msg.ok s.par.msgCap = true) (v : Word) (x : Fault) : cmdWrite v s ≠ .fault x := by
  obtain ⟨-, -, e⟩ | ⟨-, ⟨i, -, e⟩ | ⟨_, -, e⟩⟩ := cmdWrite_cases v s <;> rw [e]
  · nofun
  · exact exec_not_fault h i x
  · nofun

theorem hostEvent_not_fault (h : s.msg.ok s.par.msgCap = true) (e : HostEvent) (x : Fault) : hostEvent e s ≠ .fault x := by
  obtain ⟨_, _, _, -, -, e⟩ | ⟨_, _, _, _, -, -, -, e⟩ | ⟨_, _, v, -, -, e⟩ | ⟨-, e⟩ | ⟨_, e⟩ := hostEvent_cases e s <;>
    rw [e]
  case inr.inr.inl => exact cmdWrite_not_fault h v x
  all_goals nofun

/-- Settles O23: the message buffer meets R21, and nothing else makes a step answer a fault. -/
theorem invStatesAreNeverStuck : Obligations.InvStatesAreNeverStuck := by
  intro s h x
  cases hq : s.hostQ with
  | nil => rw [step_nil s hq]; nofun
  | cons e rest => rw [step_cons s e rest hq]; exact hostEvent_not_fault (h.setQueue rest).msg_ok e x

end Sys2Proof.Machine
end

/-! # What a word decodes to: the formats one by one, then the opcode, then the word of `hmac` -/
section
namespace Sys2Proof

theorem decodeN_ok {v : Word} {i j : Instr} (h : decodeN v i = .ok j) : v.extractLsb' 0 24 = 0 ∧ i = j := by
  unfold decodeN at h
  split at h
  · cases h; exact ⟨‹_›, rfl⟩
  · cases h

theorem decodeI8_ok {v : Word} {mk : Byte → Instr} {j : Instr} (h : decodeI8 v mk = .ok j) : ∃ b, mk b = j := by
  unfold decodeI8 at h
  split at h
  · cases h; exact ⟨_, rfl⟩
  · cases h

theorem decodeB16_ok {v : Word} {mk : BitVec 16 → Instr} {j : Instr} (h : decodeB16 v mk = .ok j) : ∃ blk, mk blk = j := by
  unfold decodeB16 at h
  split at h
  · cases h; exact ⟨_, rfl⟩
  · cases h

theorem decodeNB_ok {v : Word} {mk : Nat → Byte → Instr} {j : Instr} (h : decodeNB v mk = .ok j) : ∃ n val, mk n val = j := by
  simp only [decodeNB] at h
  split at h
  · cases h
  · split at h
    · cases h
    · split at h
      · cases h
      · cases h; exact ⟨_, _, rfl⟩

/-- A word that decodes carries the opcode of its instruction (R86, R88). The cases are the rows of R88 in order, by their formats. -/
theorem opcodeOf_of_decode {v : Word} {i : Instr} (h : decode v = .ok i) : opcodeOf v = i.opcode := by
  unfold decode at h
  split at h
  case h_4 | h_8 => obtain ⟨_, rfl⟩ := decodeI8_ok h; exact BitVec.eq_of_toNat_eq ‹_›
  case h_5 => obtain ⟨_, _, rfl⟩ := decodeNB_ok h; exact BitVec.eq_of_toNat_eq ‹_›
  case h_10 | h_15 => obtain ⟨_, rfl⟩ := decodeB16_ok h; exact BitVec.eq_of_toNat_eq ‹_›
  case h_19 => cases h
  all_goals obtain ⟨-, rfl⟩ := decodeN_ok h; exact BitVec.eq_of_toNat_eq ‹_›

/-- Only one word is `hmac` (R86, R88). -/
theorem eq_of_decode_hmac {v : Word} (h : decode v = .ok .hmac) : v = 0x31000000 := by
  have ho : opcodeOf v = 0x31 := opcodeOf_of_decode h
  have hd : decode v = decodeN v .hmac := by rw [decode, ho]; rfl
  have hz := (decodeN_ok (hd ▸ h)).1
  exact BitVec.eq_of_toNat_eq (by rw [opcodeOf_split, ho, hz]; rfl)

end Sys2Proof
end

/-! # The contents of `KEY` stay secret

Two states that differ in the contents of the key alone (`SameButKey`, R23) are taken along together. Only the effect of `hmac` reads
these contents. -/
section
namespace Sys2Proof.Machine

variable {s s' t : State} {i : Instr}

/-! ### One rule per operation -/

/-- An operation that neither reads nor writes the key. -/
theorem SameButKey.map (h : SameButKey s s') (f : State → State)
    (hf : ∀ u k, (f u).key = u.key ∧ f (u.setKey k) = (f u).setKey k) : SameButKey (f s) (f s') := by
  obtain ⟨k, hk, rfl⟩ := h
  exact ⟨k, by rw [(hf s k).1, hk], (hf s k).2⟩

theorem SameButKey.setMsg (h : SameButKey s s') (m : BitBuffer) : SameButKey (s.setMsg m) (s'.setMsg m) :=
  h.map (·.setMsg m) fun _ _ => ⟨rfl, rfl⟩

theorem SameButKey.setKey (h : SameButKey s s') {x x' : List Byte} (hx : x'.length = x.length) :
    SameButKey (s.setKey x) (s'.setKey x') := by
  obtain ⟨k, -, rfl⟩ := h
  exact ⟨x', hx, rfl⟩

theorem SameButKey.setPadded (h : SameButKey s s') (p : List Byte) : SameButKey (s.setPadded p) (s'.setPadded p) :=
  h.map (·.setPadded p) fun _ _ => ⟨rfl, rfl⟩

theorem SameButKey.setHash (h : SameButKey s s') (x : Vector Word 8) : SameButKey (s.setHash x) (s'.setHash x) :=
  h.map (·.setHash x) fun _ _ => ⟨rfl, rfl⟩

theorem SameButKey.setSched (h : SameButKey s s') (x : Vector Word 64) (v : SchedValid) :
    SameButKey (s.setSched x v) (s'.setSched x v) :=
  h.map (·.setSched x v) fun _ _ => ⟨rfl, rfl⟩

theorem SameButKey.setWork (h : SameButKey s s') (x : Vector Word 8) (n : Fin 65) :
    SameButKey (s.setWork x n) (s'.setWork x n) :=
  h.map (·.setWork x n) fun _ _ => ⟨rfl, rfl⟩

theorem SameButKey.dropWork (h : SameButKey s s') : SameButKey s.dropWork s'.dropWork := h.map State.dropWork fun _ _ => ⟨rfl, rfl⟩

theorem SameButKey.setDigest (h : SameButKey s s') (x : Vector Word 8) : SameButKey (s.setDigest x) (s'.setDigest x) :=
  h.map (·.setDigest x) fun _ _ => ⟨rfl, rfl⟩

theorem SameButKey.setQueue (h : SameButKey s s') (q : List HostEvent) : SameButKey (s.setQueue q) (s'.setQueue q) :=
  h.map (·.setQueue q) fun _ _ => ⟨rfl, rfl⟩

theorem SameButKey.setRead (h : SameButKey s s') (v : Word) : SameButKey (s.setRead v) (s'.setRead v) :=
  h.map (·.setRead v) fun _ _ => ⟨rfl, rfl⟩

/-- Equal counts of draws draw equal free words (log 4). -/
theorem SameButKey.drawRead (h : SameButKey s s') : SameButKey s.drawRead s'.drawRead := h.map State.drawRead fun _ _ => ⟨rfl, rfl⟩

theorem SameButKey.raise (h : SameButKey s s') (c : ErrCode) (v : Word) : SameButKey (s.raise c v) (s'.raise c v) :=
  h.map (·.raise c v) fun _ _ => ⟨rfl, rfl⟩

theorem SameButKey.softReset (h : SameButKey s s') : SameButKey s.softReset s'.softReset := by
  obtain ⟨k, -, rfl⟩ := h
  exact ⟨[], rfl, rfl⟩

/-! ### Commands -/

theorem SameButKey.key_eq_nil_iff (h : SameButKey s s') : s'.key = [] ↔ s.key = [] := by
  obtain ⟨k, hk, rfl⟩ := h
  simp only [← List.length_eq_zero_iff, hk]

theorem compressBody_setKey (b : Nat) (s : State) (k : List Byte) :
    compressBody b (s.setKey k) = (compressBody b s).setKey k := by
  rw [compressBody_eq, compressBody_eq]
  rfl

/-- The blocks of `hash` do not touch the key. -/
theorem compressAll_setKey (n : Nat) (s : State) (k : List Byte) : compressAll n (s.setKey k) = (compressAll n s).setKey k := by
  induction n with
  | zero => rfl
  | succ n ih => rw [compressAll_succ, compressAll_succ, ih, compressBody_setKey]

theorem hashRun_setKey (s : State) (k : List Byte) : hashRun (s.setKey k) = (hashRun s).setKey k := by
  have hpad (p : List Byte) : ((s.setKey k).setPadded p).setHash iv = ((s.setPadded p).setHash iv).setKey k := rfl
  have hn (u : State) : nblk (u.setKey k) = nblk u := rfl
  rw [hashRun, hashRun, State.setKey_msg, hpad, hn, compressAll_setKey]

/-- The conditions of the errors read the length of the key only (R234, R239). -/
theorem SameButKey.raised {c : ErrCode} (h : SameButKey s s') (r : Raised i s c) : Raised i s' c := by
  obtain ⟨k, hk, rfl⟩ := id h
  cases r with
  | msgByte _ b hf => exact .msgByte _ b hf
  | msgBits _ n val hf => exact .msgBits _ n val hf
  | keyByte _ b hf => exact .keyByte _ b (hk ▸ hf)
  | blkLoadPad _ blk hp => exact .blkLoadPad _ blk hp
  | blkLoadRange _ blk hp hb => exact .blkLoadRange _ blk hp hb
  | sched _ hw => exact .sched _ hw
  | wkLoad _ hh => exact .wkLoad _ hh
  | roundUninit _ hu => exact .roundUninit _ hu
  | roundSeq _ hwk hw hr => exact .roundSeq _ hwk hw hr
  | foldUninit _ hu => exact .foldUninit _ hu
  | foldSeq _ hwk hh hr => exact .foldSeq _ hwk hh hr
  | compressPad _ blk hp => exact .compressPad _ blk hp
  | compressRange _ blk hp hb => exact .compressRange _ blk hp hb
  | compressUninit _ blk hp hb hh => exact .compressUninit _ blk hp hb hh
  | digest _ hh => exact .digest _ hh
  | hmacKey _ he => exact .hmacKey _ (h.key_eq_nil_iff.mpr he)
  | hmacTail _ he hm => exact .hmacTail _ (he ∘ h.key_eq_nil_iff.mp) hm

/-- Every command but `hmac` has its effect in the other state too, and writes the same there but into the key. -/
theorem SameButKey.did (h : SameButKey s s') (hi : i ≠ .hmac) (d : Did i s t) : ∃ t', Did i s' t' ∧ SameButKey t t' := by
  obtain ⟨k, hk, rfl⟩ := id h
  cases d with
  | nop => exact ⟨_, .nop _, h⟩
  | sreset => exact ⟨_, .sreset _, h.softReset⟩
  | msgClear => exact ⟨_, .msgClear _, h.setMsg _⟩
  | msgByte _ b hf => exact ⟨_, .msgByte _ b hf, h.setMsg _⟩
  | msgBits _ n val hf => exact ⟨_, .msgBits _ n val hf, h.setMsg _⟩
  | msgPad _ ho => exact ⟨_, .msgPad _ ho, h.setPadded _⟩
  | keyClear => exact ⟨_, .keyClear _, h.setKey rfl⟩
  | keyByte _ b hf => exact ⟨_, .keyByte _ b (hk ▸ hf), h.setKey (by simp [hk])⟩
  | hInit => exact ⟨_, .hInit _, h.setHash _⟩
  | blkLoad _ blk hp hb => exact ⟨_, .blkLoad _ blk hp hb, h.setSched _ _⟩
  | sched _ hw => exact ⟨_, .sched _ hw, h.setSched _ _⟩
  | wkLoad _ hh => exact ⟨_, .wkLoad _ hh, h.setWork _ _⟩
  | round _ hwk hw hr => exact ⟨_, .round _ hwk hw hr, h.setWork _ _⟩
  | fold _ hwk hh hr => exact ⟨_, .fold _ hwk hh hr, (h.setHash _).dropWork⟩
  | compress _ blk hp hb hh =>
    exact ⟨_, .compress _ blk hp hb hh, (((h.setSched _ _).setWork _ _).setHash _).dropWork⟩
  | digest _ hh => exact ⟨_, .digest _ hh, h.setDigest _⟩
  | hash _ ho =>
    have hrun : hashRun { s with key := k } = (hashRun s).setKey k := hashRun_setKey s k
    refine ⟨_, .hash _ ho, ?_⟩
    rw [hash_writes_eq, hash_writes_eq, hrun, State.setKey_w, State.setKey_wk]
    exact ((((h.setPadded _).setHash _).setSched _ _).setWork _ _).dropWork.setDigest _
  | hmac => exact absurd rfl hi

theorem SameButKey.exec_next (h : SameButKey s s') (hi : i ≠ .hmac) (e : exec i s = .next t) :
    ∃ t', exec i s' = .next t' ∧ SameButKey t t' := by
  obtain d | ⟨c, rfl, r⟩ := Machine.exec_next i s t e
  · obtain ⟨t', d', h'⟩ := h.did hi d
    exact ⟨t', d'.exec, h'⟩
  · exact ⟨_, (h.raised r).exec, h.raise c _⟩

/-! ### The layers of a step -/

theorem SameButKey.cmdWrite_next {v : Word} (h : SameButKey s s') (hv : v ≠ 0x31000000) (e : cmdWrite v s = .next t) :
    ∃ t', cmdWrite v s' = .next t' ∧ SameButKey t t' := by
  have hf : s'.fault = s.fault := by obtain ⟨k, -, rfl⟩ := h; rfl
  unfold cmdWrite at e ⊢
  rw [hf]
  split at e
  case isTrue hd => cases e; exact ⟨s', if_pos hd, h⟩
  case isFalse hd =>
    rw [if_neg hd]
    unfold runCommand at e ⊢
    cases hi : decode v with
    | ok i => rw [hi] at e; exact h.exec_next (fun he => hv (eq_of_decode_hmac (he ▸ hi))) e
    | error x =>
      rw [hi] at e
      cases e
      exact ⟨_, rfl, h.raise _ _⟩

/-- Of the key a register shows the length at most (R23, R56). -/
theorem SameButKey.readReg_eq (h : SameButKey s s') (r : HostReg) : readReg r s' = readReg r s := by
  obtain ⟨k, hk, rfl⟩ := h
  cases r with
  | keyLen => simp only [readReg, hk]
  | _ => rfl

theorem SameButKey.hostRead (h : SameButKey s s') (r : HostReg) : SameButKey (hostRead r s) (hostRead r s') := by
  unfold Machine.hostRead
  rw [h.readReg_eq r]
  cases readReg r s with
  | some v => exact h.setRead v
  | none => exact h.drawRead

theorem SameButKey.hostWrite_next {r : HostReg} {v : Word} (h : SameButKey s s') (hv : r = .cmd → v ≠ 0x31000000)
    (e : hostWrite r v s = .next t) : ∃ t', hostWrite r v s' = .next t' ∧ SameButKey t t' := by
  unfold hostWrite at e ⊢
  split at e
  case isTrue hr => rw [if_pos hr]; exact h.cmdWrite_next (hv hr) e
  case isFalse hr => cases e; exact ⟨s', if_neg hr, h⟩

theorem SameButKey.hostEvent_next {e : HostEvent} (h : SameButKey s s') (he : e ≠ .write .w32 s.par.base 0x31000000)
    (hs : hostEvent e s = .next t) : ∃ t', hostEvent e s' = .next t' ∧ SameButKey t t' := by
  have hp : s'.par = s.par := by obtain ⟨k, -, rfl⟩ := h; rfl
  cases e with
  | read width addr =>
    simp only [hostEvent, hp] at hs ⊢
    cases hl : locate s.par width addr with
    | ok r => rw [hl] at hs; cases hs; exact ⟨_, rfl, h.hostRead r⟩
    | error x => rw [hl] at hs; cases hs
  | write width addr v =>
    simp only [hostEvent, hp] at hs ⊢
    cases hl : locate s.par width addr with
    | ok r =>
      rw [hl] at hs
      refine h.hostWrite_next (fun hr hv => he ?_) hs
      obtain ⟨rfl, rfl⟩ := locate_cmd _ _ _ (hr ▸ hl)
      rw [hv]
    | error x => rw [hl] at hs; cases hs
  | powerOn => cases hs; exact ⟨_, rfl, h.softReset⟩

/-- Settles O58: every layer of a step keeps the agreement but for the key, as long as the command is not `hmac`. -/
theorem keyContentsStaySecret : Obligations.KeyContentsStaySecret := by
  intro s s' t e rest h hq he hs
  have hq' : s'.hostQ = e :: rest := by obtain ⟨k, -, rfl⟩ := h; exact hq
  rw [step_cons s e rest hq] at hs
  rw [step_cons s' e rest hq']
  exact (h.setQueue rest).hostEvent_next he hs

end Sys2Proof.Machine
end

/-! # Who writes what

A command that raises an error writes the error fields only; for the others `Did` says what is written, one line per command. -/
section
namespace Sys2Proof.Machine

variable {s t : State} {i : Instr}

theorem Did.msg_eq (d : Did i s t) :
    t.msg = s.msg ∨ i = .msgClear ∨ (∃ b, i = .msgByte b) ∨ (∃ n val, i = .msgBits n val) ∨ i = .sreset := by
  cases d with
  | msgClear => exact .inr (.inl rfl)
  | msgByte _ b => exact .inr (.inr (.inl ⟨b, rfl⟩))
  | msgBits _ n val => exact .inr (.inr (.inr (.inl ⟨n, val, rfl⟩)))
  | sreset => exact .inr (.inr (.inr (.inr rfl)))
  | _ => exact .inl (by simp)

theorem Did.key_eq (d : Did i s t) : t.key = s.key ∨ i = .keyClear ∨ (∃ b, i = .keyByte b) ∨ i = .sreset := by
  cases d with
  | keyClear => exact .inr (.inl rfl)
  | keyByte _ b => exact .inr (.inr (.inl ⟨b, rfl⟩))
  | sreset => exact .inr (.inr (.inr rfl))
  | _ => exact .inl (by simp)

/-- Settles O56, by the split into effects and errors. -/
theorem buffersWrittenByTheirCommandsOnly : Obligations.BuffersWrittenByTheirCommandsOnly := by
  intro i s t h
  obtain d | ⟨c, rfl, -⟩ := exec_next i s t h
  · exact ⟨d.msg_eq, d.key_eq⟩
  · exact ⟨.inl rfl, .inl rfl⟩

theorem Did.pb_eq (d : Did i s t) : (t.pb = s.pb ∧ t.pbv = s.pbv) ∨ i ∈ [.msgPad, .hash, .hmac, .sreset] := by
  cases d with
  | msgPad | hash | hmac | sreset => exact .inr (by simp)
  | _ => exact .inl (by simp)

theorem Did.h_eq (d : Did i s t) :
    (t.h = s.h ∧ t.hv = s.hv) ∨ i ∈ [.hInit, .fold, .hash, .hmac, .sreset] ∨ ∃ blk, i = .compress blk := by
  cases d with
  | hInit | fold | hash | hmac | sreset => exact .inr (.inl (by simp))
  | compress _ blk => exact .inr (.inr ⟨blk, rfl⟩)
  | _ => exact .inl (by simp)

theorem Did.w_eq (d : Did i s t) :
    (t.w = s.w ∧ t.wv = s.wv) ∨ i ∈ [.sched, .hash, .hmac, .sreset] ∨ ∃ blk, i = .blkLoad blk ∨ i = .compress blk := by
  cases d with
  | sched | hash | hmac | sreset => exact .inr (.inl (by simp))
  | blkLoad _ blk => exact .inr (.inr ⟨blk, .inl rfl⟩)
  | compress _ blk => exact .inr (.inr ⟨blk, .inr rfl⟩)
  | _ => exact .inl (by simp)

theorem Did.wk_eq (d : Did i s t) :
    (t.wk = s.wk ∧ t.wkv = s.wkv) ∨ i ∈ [.wkLoad, .round, .fold, .hash, .hmac, .sreset] ∨ ∃ blk, i = .compress blk := by
  cases d with
  | wkLoad | round | fold | hash | hmac | sreset => exact .inr (.inl (by simp))
  | compress _ blk => exact .inr (.inr ⟨blk, rfl⟩)
  | _ => exact .inl (by simp)

theorem Did.dg_eq (d : Did i s t) : (t.dg = s.dg ∧ t.dv = s.dv) ∨ i ∈ [.digest, .hash, .hmac, .sreset] := by
  cases d with
  | digest | hash | hmac | sreset => exact .inr (by simp)
  | _ => exact .inl (by simp)

theorem Did.rc_eq (d : Did i s t) :
    t.rc = s.rc ∨ i ∈ [.wkLoad, .round, .hash, .hmac, .sreset] ∨ ∃ blk, i = .compress blk := by
  cases d with
  | wkLoad | round | hash | hmac | sreset => exact .inr (.inl (by simp))
  | compress _ blk => exact .inr (.inr ⟨blk, rfl⟩)
  | _ => exact .inl (by simp)

/-- Settles O57, file by file. -/
theorem filesWrittenByTheirCommandsOnly : Obligations.FilesWrittenByTheirCommandsOnly := by
  intro i s t h
  obtain d | ⟨c, rfl, -⟩ := exec_next i s t h
  · exact ⟨d.pb_eq, d.h_eq, d.w_eq, d.wk_eq, d.dg_eq, d.rc_eq⟩
  · exact ⟨.inl ⟨rfl, rfl⟩, .inl ⟨rfl, rfl⟩, .inl ⟨rfl, rfl⟩, .inl ⟨rfl, rfl⟩, .inl ⟨rfl, rfl⟩, .inl rfl⟩

end Sys2Proof.Machine
end

/-! # What a reset leaves -/
section
namespace Sys2Proof.Machine

/-- The registers of R262 read 0 after a reset. -/
theorem readReg_softReset_zero (s : State) :
    ∀ r ∈ [HostReg.status, .errCause, .errCmd, .msgLenLo, .msgLenHi, .keyLen, .rc, .nblk],
      readReg r s.softReset = some 0 := by
  have hstatus : statusWord s.softReset = 0 := by simp [statusWord, SchedValid.code]
  have hlen : BitBuffer.empty.lenBits = 0 := rfl
  simp [readReg, hstatus, hlen, ErrCode.code, nblk]

/-- Each of the three ways to the reset state ends in `softReset` of some state. -/
theorem eq_softReset_of_reset {s t : State}
    (h : exec .sreset s = .next t ∨ (∃ rest, s.hostQ = .powerOn :: rest ∧ step s = .next t) ∨ t = State.reset) :
    ∃ u : State, t = u.softReset := by
  obtain h | ⟨rest, hq, h⟩ | rfl := h
  · cases h; exact ⟨s, rfl⟩
  · rw [step_cons s _ rest hq] at h; cases h; exact ⟨s.setQueue rest, rfl⟩
  · exact ⟨State.reset, rfl⟩

/-- Settles O19. -/
theorem resetState : Obligations.ResetState := by
  intro s t h
  obtain ⟨u, rfl⟩ := eq_softReset_of_reset h
  exact ⟨rfl, rfl, rfl, rfl, rfl, rfl, rfl, rfl, rfl, rfl, rfl, rfl, rfl, readReg_softReset_zero u,
    fun _ => ⟨rfl, rfl, rfl⟩, fun _ => rfl⟩

end Sys2Proof.Machine
end

/-! # The host's list of events

A step takes the first event off the list; no command, read or reset writes the list beside that. -/
section
namespace Sys2Proof.Machine

variable {s t : State} {i : Instr}

@[simp] theorem compressBody_hostQ (b : Nat) (s : State) : (compressBody b s).hostQ = s.hostQ := by simp [compressBody]

theorem Did.hostQ_eq (d : Did i s t) : t.hostQ = s.hostQ := by cases d <;> simp

theorem Effect.hostQ_eq (e : Effect s t) : t.hostQ = s.hostQ := by
  cases e with
  | command i _ d => exact d.hostQ_eq
  | _ => rfl

/-- Settles O10: the event is gone before its effect begins, and no effect writes the list. -/
theorem eventsTakeEffectInOrder : Obligations.EventsTakeEffectInOrder := by
  refine ⟨fun s t e rest hq h => ?_, step_nil⟩
  rw [step_cons s e rest hq] at h
  exact (hostEvent_effect h).hostQ_eq

/-- `withFetchWord` puts the `CMD` write of the word before the events to come (log 13). -/
theorem withFetchWord_hostQ (s : State) (v : Word) :
    (s.withFetchWord 32 v.toNat).hostQ = .write .w32 s.par.base v :: s.hostQ := by
  have hv : BitVec.ofNat 32 (v.toNat % 2 ^ 32) = v := by rw [Nat.mod_eq_of_lt v.isLt, BitVec.ofNat_toNat, BitVec.setWidth_eq]
  simp only [State.withFetchWord, issueWord, State.setQueue_hostQ, cmdEvent, HostReg.offset, Nat.add_zero, hv]

/-- Outside the fault state a `CMD` write of a word that decodes is `exec` of its instruction (R51). -/
theorem step_exec {v : Word} {rest : List HostEvent} (hf : s.fault = false) (hd : decode v = .ok i)
    (hq : s.hostQ = .write .w32 s.par.base v :: rest) : step s = exec i (s.setQueue rest) := by
  rw [step_cmd s v rest hq, cmdWrite_run v (s.setQueue rest) hf, runCommand_ok v i _ hd]

/-- Settles O5: a pending word is run as a `CMD` write, and so is one that `withFetchWord` puts first. -/
theorem stepRunsDecodedCommand : Obligations.StepRunsDecodedCommand :=
  fun s v _ hf hd => ⟨fun _ => step_exec hf hd, step_exec (s := s.withFetchWord 32 v.toNat) hf hd (withFetchWord_hostQ s v)⟩

end Sys2Proof.Machine
end

/-! # Accesses to the register window: which are refused, and what the others do -/
section
namespace Sys2Proof.Machine

/-! ### The map -/

/-- No register stands at the reserved offsets, nor past the window (R60). -/
theorem regAt_eq_none {off : Nat} (h : (0x030 ≤ off ∧ off ≤ 0x03F) ∨ (0x0A0 ≤ off ∧ off ≤ 0x0FF) ∨ 0x200 ≤ off) :
    regAt off = none := by
  unfold regAt
  obtain h | h | h := h
  · rw [if_neg (by omega), if_pos (by omega)]
  · rw [if_neg (by omega), if_neg (by omega), if_neg (by omega), if_neg (by omega), if_neg (by omega), if_pos (by omega)]
  · rw [if_neg (by omega), if_neg (by omega), if_neg (by omega), if_neg (by omega), if_neg (by omega), if_neg (by omega),
      if_neg (by omega)]

/-- Settles O14: every register is found at its offset, and the rest of the map is empty. -/
theorem registerMap : Obligations.RegisterMap :=
  ⟨rfl, fun r _ => regAt_offset r, fun i => ⟨regAt_offset (.h i), regAt_offset (.wk i), regAt_offset (.dg i)⟩,
    fun i => regAt_offset (.w i), fun _ => regAt_eq_none⟩

/-! ### Refused accesses -/

/-- An access that reaches a register is 32 bits wide, aligned, and at an offset where the map has one (R60, R65). -/
theorem locate_ok {p : Params} {width : AccessWidth} {off : Nat} {r : HostReg} (h : locate p width (p.base + off) = .ok r) :
    width = .w32 ∧ off % 4 = 0 ∧ regAt off = some r := by
  unfold locate at h
  rw [Nat.add_sub_cancel_left] at h
  split at h
  · cases h
  · split at h
    · cases h
    · split at h
      · cases h
      · split at h
        · cases h
          exact ⟨not_not.mp ‹_›, not_not.mp ‹_›, ‹_›⟩
        · cases h

/-- Settles O13: such an access reaches no register, so `locate` answers why it is refused. -/
theorem undefinedAccessesRefused : Obligations.UndefinedAccessesRefused := by
  intro s e rest width off hq he hoff
  cases hl : locate s.par width (s.par.base + off) with
  | ok r =>
    obtain ⟨hw, ha, hr⟩ := locate_ok hl
    obtain h | h | h := hoff
    · exact absurd hw h
    · exact absurd ha h
    · cases (regAt_eq_none h).symm.trans hr
  | error x =>
    refine ⟨x, ?_⟩
    rw [step_cons s e rest hq]
    obtain rfl | ⟨v, rfl⟩ := he <;> simp only [hostEvent, State.setQueue_par, hl]

/-! ### Reads and ignored writes -/

variable {s : State} {r : HostReg} {rest : List HostEvent}

/-- What a register reads does not depend on the events to come. -/
@[simp] theorem readReg_setQueue (r : HostReg) (s : State) (q : List HostEvent) : readReg r (s.setQueue q) = readReg r s := by
  cases r <;> rfl

theorem hostRead_of_some {v : Word} (h : readReg r s = some v) : hostRead r s = s.setRead v := by simp only [hostRead, h]

theorem hostRead_of_none (h : readReg r s = none) : hostRead r s = s.drawRead := by simp only [hostRead, h]

/-- A 32-bit read at a register's address completes (R65, R67). -/
theorem step_read (h : s.hostQ = .read .w32 (s.par.base + r.offset) :: rest) : step s = .next (hostRead r (s.setQueue rest)) := by
  rw [step_cons s _ rest h]
  simp only [hostEvent, State.setQueue_par, locate_offset]

/-- A 32-bit write to a read-only register is ignored (R65, U4). -/
theorem step_write_of_ne_cmd {v : Word} (hr : r ≠ .cmd) (h : s.hostQ = .write .w32 (s.par.base + r.offset) v :: rest) :
    step s = .next (s.setQueue rest) := by
  rw [step_cons s _ rest h]
  simp only [hostEvent, State.setQueue_par, locate_offset, hostWrite, if_neg hr]

/-- Settles O12. -/
theorem accessesHaveNoSideEffect : Obligations.AccessesHaveNoSideEffect := by
  refine fun s r rest => ⟨fun hq => ⟨fun w hw => ?_, fun hn => ?_⟩, fun v => step_write_of_ne_cmd⟩
  · rw [step_read hq, hostRead_of_some ((readReg_setQueue r s rest).trans hw)]
    rfl
  · rw [step_read hq, hostRead_of_none ((readReg_setQueue r s rest).trans hn)]
    rfl

end Sys2Proof.Machine
end

/-! # What the registers read -/
section
namespace Sys2Proof.Machine

variable {s : State}

/-! ### `STATUS` and the error registers -/

/-- The one-bit fields of `STATUS` (R52). -/
theorem statusWord_getLsbD (s : State) :
    (statusWord s).getLsbD 0 = s.fault ∧ (statusWord s).getLsbD 1 = s.pbv ∧ (statusWord s).getLsbD 2 = s.hv ∧
      (statusWord s).getLsbD 5 = s.wkv ∧ (statusWord s).getLsbD 6 = s.dv := by
  simp only [statusWord, BitVec.getLsbD_append]
  simp

theorem append_toNat {n m : Nat} (x : BitVec n) (y : BitVec m) : (x ++ y).toNat = x.toNat * 2 ^ m + y.toNat := by
  rw [BitVec.toNat_append, ← Nat.shiftLeft_add_eq_or_of_lt y.isLt, Nat.shiftLeft_eq]

/-- `STATUS` as a number: the sum of its fields at their places (R52). -/
theorem statusWord_toNat (s : State) : (statusWord s).toNat =
    s.fault.toNat + 2 * s.pbv.toNat + 4 * s.hv.toNat + 8 * s.wv.code.toNat + 32 * s.wkv.toNat + 64 * s.dv.toNat := by
  simp only [statusWord, append_toNat, BitVec.toNat_ofBool, BitVec.ofNat_eq_ofNat, BitVec.toNat_zero]
  omega

/-- The field `WV` of `STATUS`, and the bits 31:7 that read as 0 (R52). -/
theorem statusWord_wv (s : State) : (statusWord s).toNat / 8 % 4 = s.wv.code.toNat ∧ (statusWord s).toNat < 2 ^ 7 := by
  have hsum := statusWord_toNat s
  have hwv := s.wv.code.isLt
  have hfault := s.fault.toNat_le
  have hpbv := s.pbv.toNat_le
  have hhv := s.hv.toNat_le
  have hwkv := s.wkv.toNat_le
  have hdv := s.dv.toNat_le
  omega

/-- Settles O15: the flags bit by bit, `WV` and the bits above the fields from the word as a number. -/
theorem statusLayout : Obligations.StatusLayout := by
  intro s
  obtain ⟨hfault, hpbv, hhv, hwkv, hdv⟩ := statusWord_getLsbD s
  obtain ⟨hwv, hlt⟩ := statusWord_wv s
  refine ⟨statusWord s, rfl, hfault, hpbv, hhv, hwv.trans ?_, hwkv, hdv, hlt⟩
  cases s.wv <;> rfl

/-- Settles O16, code by code. -/
theorem errorRegisters : Obligations.ErrorRegisters := by
  refine fun s => ⟨rfl, ?_⟩
  simp only [readReg]
  cases s.errCause <;> rfl

/-! ### The counts -/

namespace State.Inv

/-- The message length in bits is below `2 ^ 35`, so the high half of its 64 bits is at most 7 (R55). -/
theorem lenBits_lt (h : s.Inv) : s.msg.lenBits < 2 ^ 35 := by
  have hcap := (caps_lt_of_ok h.par_ok).1
  have hlen := ((BitBuffer.ok_iff _ _).mp h.msg_ok).2
  omega

theorem key_length_lt (h : s.Inv) : s.key.length < 2 ^ 32 := h.key_cap.trans_lt (caps_lt_of_ok h.par_ok).2

/-- The longest message pads to fewer than `2 ^ 32` blocks (R6, R142). -/
theorem nblk_lt (h : s.Inv) : nblk s < 2 ^ 32 := by
  have hcap := (caps_lt_of_ok h.par_ok).1
  unfold nblk
  split
  · have hfits := h.pb_fits ‹_›
    omega
  · decide

end State.Inv

/-- Settles O17: under the invariant every count fits its register. -/
theorem countRegisters : Obligations.CountRegisters := by
  intro s h
  have hlen := h.lenBits_lt
  have htc := s.msg.tc.isLt
  have hlo : (BitVec.ofNat 32 s.msg.lenBits).toNat = s.msg.lenBits % 2 ^ 32 := BitVec.toNat_ofNat _ _
  have hhi : (BitVec.ofNat 32 (s.msg.lenBits / 2 ^ 32)).toNat = s.msg.lenBits / 2 ^ 32 :=
    Nat.mod_eq_of_lt (by omega)
  have hdef : s.msg.lenBits = 8 * s.msg.data.length + s.msg.tc.val := rfl
  exact ⟨_, _, _, _, _, rfl, rfl, rfl, by omega, by omega, by omega, rfl, Nat.mod_eq_of_lt h.key_length_lt,
    rfl, Nat.mod_eq_of_lt (by omega), rfl, Nat.mod_eq_of_lt h.nblk_lt⟩

/-! ### The files -/

/-- Which words of `W` are not valid (R26). -/
theorem schedWordValid_eq_false_iff (s : State) (i : Nat) :
    schedWordValid s i = false ↔ s.wv = .none ∨ (s.wv = .lo ∧ 16 ≤ i) := by
  unfold schedWordValid
  cases s.wv <;> simp

/-- Settles O18: `H`, `WK` and `DG` by their one valid bit, `W` by what `WV` covers. -/
theorem fileReads : Obligations.FileReads := by
  refine fun s => ⟨fun i => ⟨rfl, rfl, rfl⟩, fun i => ?_⟩
  simp only [readReg, ← schedWordValid_eq_false_iff]
  cases schedWordValid s i <;> rfl

end Sys2Proof.Machine
end

/-! # The decoder and the encoder are inverse to each other

The opcode fixes the row and with it the format (`Instr.decodeFormat`, R88). Each format gives an instruction exactly for its operand
bits (R82 to R85), so the words that decode are the words of the legal instructions (`decode_eq_ok_iff`). -/
section
namespace Sys2Proof

open Machine

variable {v : Word} {i j : Instr}

/-! ### The fields of a word as numbers -/

theorem extract_eq_iff (v : Word) (k : Nat) {n : Nat} (b : BitVec n) :
    v.extractLsb' k n = b ↔ v.toNat / 2 ^ k % 2 ^ n = b.toNat := by
  rw [← BitVec.toNat_inj, extract_toNat]

/-- The bits of a field are all 0 ("must be 0", R90). -/
theorem extract_eq_zero_iff (v : Word) (k n : Nat) : v.extractLsb' k n = 0 ↔ v.toNat / 2 ^ k % 2 ^ n = 0 :=
  extract_eq_iff v k 0

/-- A count of 1..8 and its value are legal as numbers (R84). -/
theorem bitsLegal_iff (n : Nat) (val : Byte) : bitsLegal n val = true ↔ 1 ≤ n ∧ n ≤ 8 ∧ val.toNat < 2 ^ n := by
  simp only [bitsLegal, Bool.and_eq_true, decide_eq_true_eq, and_assoc]

/-- The operand bits of format `NB` as a number (R84): `N` stands above the eight bits of `VAL`. -/
theorem operandBits_msgBits_toNat {n : Nat} (val : Byte) (h : n ≤ 8) :
    (Instr.msgBits n val).operandBits.toNat = 256 * n + val.toNat := by
  have hval : val.toNat < 2 ^ 8 := val.isLt
  have hn : (BitVec.ofNat 32 n <<< 8).toNat = n <<< 8 := by
    rw [BitVec.toNat_shiftLeft, BitVec.toNat_ofNat, Nat.shiftLeft_eq, Nat.shiftLeft_eq]
    omega
  rw [Instr.operandBits, BitVec.toNat_or, hn, BitVec.toNat_setWidth_of_le (by omega), ← Nat.shiftLeft_add_eq_or_of_lt hval,
    Nat.shiftLeft_eq]
  omega

/-- Legal operands fill at most the 24 bits below the opcode (R82 to R85). -/
theorem operandBits_lt (h : i.wellFormed = true) : i.operandBits.toNat < 2 ^ 24 := by
  cases i with
  | msgByte b | keyByte b => exact setWidth_toNat_lt 8 b (by omega)
  | blkLoad blk | compress blk => exact setWidth_toNat_lt 16 blk (by omega)
  | msgBits n val =>
    obtain ⟨-, hn, -⟩ := (bitsLegal_iff n val).mp h
    have hval := val.isLt
    rw [operandBits_msgBits_toNat val hn]
    omega
  | _ => decide

/-- The word of a legal instruction is the one with its opcode and its operand bits (R81, R94). -/
theorem encode_eq_iff (h : i.wellFormed = true) :
    encode i = v ↔ opcodeOf v = i.opcode ∧ v.toNat % 2 ^ 24 = i.operandBits.toNat := by
  have hlt := operandBits_lt h
  have hopc : opcodeOf (encode i) = i.opcode := opcodeOf_assembled _ _ hlt
  have hlow : (encode i).toNat % 2 ^ 24 = i.operandBits.toNat := by
    have hfield : (encode i).extractLsb' 0 24 = i.operandBits.extractLsb' 0 24 := extract_assembled _ _ 0 24 le_rfl
    rw [extract_eq_iff, extract_toNat] at hfield
    omega
  constructor
  · rintro rfl
    exact ⟨hopc, hlow⟩
  · rintro ⟨ho, hv⟩
    have hsplit := opcodeOf_split v
    have hsplit' := opcodeOf_split (encode i)
    rw [extract_toNat] at hsplit hsplit'
    rw [ho] at hsplit
    rw [hopc] at hsplit'
    exact BitVec.eq_of_toNat_eq (by omega)

/-! ### The formats -/

/-- A check that guards a result answers it exactly when the check holds. -/
theorem ite_ok_eq_ok_iff {p : Prop} [Decidable p] {x : DecodeError} :
    (if p then .ok i else .error x : Except DecodeError Instr) = .ok j ↔ p ∧ i = j := by
  split
  · rw [Except.ok.injEq, and_iff_right ‹p›]
  · exact iff_of_false nofun fun h => ‹¬ p› h.1

theorem decodeN_eq_ok_iff : decodeN v i = .ok j ↔ v.extractLsb' 0 24 = 0 ∧ i = j := ite_ok_eq_ok_iff

theorem decodeI8_eq_ok_iff {mk : Byte → Instr} :
    decodeI8 v mk = .ok j ↔ v.extractLsb' 8 16 = 0 ∧ mk (v.extractLsb' 0 8) = j := ite_ok_eq_ok_iff

theorem decodeB16_eq_ok_iff {mk : BitVec 16 → Instr} :
    decodeB16 v mk = .ok j ↔ v.extractLsb' 16 8 = 0 ∧ mk (v.extractLsb' 0 16) = j := ite_ok_eq_ok_iff

/-- `nbFieldsLegal` is the check of `N` and `VAL` on the fields of the word (R84, R86). -/
theorem nbFieldsLegal_eq (v : Word) : nbFieldsLegal v = bitsLegal (v.extractLsb' 8 4).toNat (v.extractLsb' 0 8) := by
  simp only [nbFieldsLegal, bitsLegal, extract_toNat, Nat.reducePow, Nat.div_one]

theorem decodeNB_eq_ok_iff {mk : Nat → Byte → Instr} :
    decodeNB v mk = .ok j ↔ v.extractLsb' 12 12 = 0 ∧ bitsLegal (v.extractLsb' 8 4).toNat (v.extractLsb' 0 8) = true ∧
      mk (v.extractLsb' 8 4).toNat (v.extractLsb' 0 8) = j := by
  simp only [decodeNB, bitsLegal_iff]
  split
  case isTrue hres => exact iff_of_false nofun fun h => hres h.1
  case isFalse hres =>
    split
    case isTrue hN => exact iff_of_false nofun fun ⟨_, ⟨h1, h8, _⟩, _⟩ => by omega
    case isFalse hN =>
      split
      case isTrue hVAL => exact iff_of_false nofun fun ⟨_, ⟨_, _, hlt⟩, _⟩ => by omega
      case isFalse hVAL =>
        rw [Except.ok.injEq]
        exact ⟨fun h => ⟨not_not.mp hres, ⟨by omega, by omega, by omega⟩, h⟩, fun h => h.2.2⟩

/-- A word of format `NB` gives `msg.bits` exactly for its operand bits, where they are legal (R84). -/
theorem decodeNB_msgBits_eq_ok_iff (n : Nat) (val : Byte) :
    decodeNB v .msgBits = .ok (.msgBits n val) ↔
      bitsLegal n val = true ∧ v.toNat % 2 ^ 24 = (Instr.msgBits n val).operandBits.toNat := by
  have hval := val.isLt
  rw [decodeNB_eq_ok_iff, Instr.msgBits.injEq]
  constructor
  · rintro ⟨hres, hlegal, rfl, rfl⟩
    obtain ⟨-, hn, -⟩ := (bitsLegal_iff _ _).mp hlegal
    rw [extract_eq_zero_iff] at hres
    refine ⟨hlegal, ?_⟩
    rw [operandBits_msgBits_toNat _ hn, extract_toNat, extract_toNat]
    omega
  · rintro ⟨hlegal, hbits⟩
    obtain ⟨-, hn, -⟩ := (bitsLegal_iff n val).mp hlegal
    rw [operandBits_msgBits_toNat val hn] at hbits
    have hres : v.extractLsb' 12 12 = 0 := by rw [extract_eq_zero_iff]; omega
    have hN : (v.extractLsb' 8 4).toNat = n := by rw [extract_toNat]; omega
    have hVAL : v.extractLsb' 0 8 = val := by rw [extract_eq_iff]; omega
    exact ⟨hres, by rwa [hN, hVAL], hN, hVAL⟩

/-- The decoder of the format of the instruction's row (R88); the operands of the instruction do not count. -/
def Instr.decodeFormat (v : Word) : Instr → Except DecodeError Instr
  | .msgByte _ => decodeI8 v .msgByte
  | .keyByte _ => decodeI8 v .keyByte
  | .msgBits _ _ => decodeNB v .msgBits
  | .blkLoad _ => decodeB16 v .blkLoad
  | .compress _ => decodeB16 v .compress
  | i => decodeN v i

/-- The opcode alone decides the row (R88). -/
theorem decode_eq_decodeFormat (h : opcodeOf v = i.opcode) : decode v = i.decodeFormat v := by
  rw [decode, h]
  cases i <;> rfl

/-- The format of an instruction's row gives the instruction exactly for its operand bits, where they are legal (R82 to R86). -/
theorem decodeFormat_eq_ok_iff :
    i.decodeFormat v = .ok i ↔ i.wellFormed = true ∧ v.toNat % 2 ^ 24 = i.operandBits.toNat := by
  cases i with
  | msgByte b | keyByte b =>
    have hb := b.isLt
    simp only [Instr.decodeFormat, decodeI8_eq_ok_iff, Instr.msgByte.injEq, Instr.keyByte.injEq, extract_eq_iff,
      BitVec.ofNat_eq_ofNat, BitVec.toNat_zero, Instr.wellFormed, Instr.operandBits,
      BitVec.toNat_setWidth_of_le (by omega : 8 ≤ 32), true_and]
    omega
  | blkLoad blk | compress blk =>
    have hblk := blk.isLt
    simp only [Instr.decodeFormat, decodeB16_eq_ok_iff, Instr.blkLoad.injEq, Instr.compress.injEq, extract_eq_iff,
      BitVec.ofNat_eq_ofNat, BitVec.toNat_zero, Instr.wellFormed, Instr.operandBits,
      BitVec.toNat_setWidth_of_le (by omega : 16 ≤ 32), true_and]
    omega
  | msgBits n val => exact decodeNB_msgBits_eq_ok_iff n val
  | _ =>
    simp only [Instr.decodeFormat, decodeN_eq_ok_iff, extract_eq_iff, Instr.wellFormed, Instr.operandBits, BitVec.ofNat_eq_ofNat,
      BitVec.toNat_zero, pow_zero, Nat.div_one, and_true, true_and]

/-- The words that decode are the words of the legal instructions (R86, R94). -/
theorem decode_eq_ok_iff : decode v = .ok i ↔ encode i = v ∧ i.wellFormed = true := by
  constructor
  · intro h
    have ho := opcodeOf_of_decode h
    rw [decode_eq_decodeFormat ho] at h
    obtain ⟨hw, hbits⟩ := decodeFormat_eq_ok_iff.mp h
    exact ⟨(encode_eq_iff hw).mpr ⟨ho, hbits⟩, hw⟩
  · rintro ⟨he, hw⟩
    obtain ⟨ho, hbits⟩ := (encode_eq_iff hw).mp he
    rw [decode_eq_decodeFormat ho]
    exact decodeFormat_eq_ok_iff.mpr ⟨hw, hbits⟩

/-- Settles O1: the word of a legal instruction decodes to it, by `decode_eq_ok_iff`. -/
theorem decodeOfEncode : Obligations.DecodeOfEncode := fun _ hw => decode_eq_ok_iff.mpr ⟨rfl, hw⟩

/-- Settles O2: the other direction of `decode_eq_ok_iff`. -/
theorem encodeOfDecode : Obligations.EncodeOfDecode := fun _ _ h => decode_eq_ok_iff.mp h

/-! ### The opcode map -/

/-- A word has the row's bits in every field the mask covers (R88). -/
theorem extract_of_selectsRow {m mask : Word} {k n : Nat} (h : selectsRow v (m, mask) = true)
    (hmask : mask.extractLsb' k n = BitVec.allOnes n) : v.extractLsb' k n = m.extractLsb' k n := by
  have hrow : v &&& mask = m := beq_iff_eq.mp h
  rw [← hrow, BitVec.extractLsb'_and, hmask, BitVec.and_allOnes]

/-- A word selects a row only by the opcode of the row: every mask covers the opcode (R88). -/
theorem opcodeOf_of_selectsRow {row : Word × Word} (hmem : row ∈ opcodeMap) (h : selectsRow v row = true) :
    opcodeOf v = opcodeOf row.1 := by
  have hmask : opcodeMap.all (fun row => row.2.extractLsb' 24 8 == BitVec.allOnes 8) = true := by decide
  exact extract_of_selectsRow h (beq_iff_eq.mp (List.all_eq_true.mp hmask row hmem))

/-- No two rows of the opcode map have one opcode (R88). -/
theorem row_eq_of_opcodeOf_eq {row row' : Word × Word} (hmem : row ∈ opcodeMap) (hmem' : row' ∈ opcodeMap)
    (h : opcodeOf row.1 = opcodeOf row'.1) : row = row' := by
  have hnodup : (opcodeMap.map fun row => opcodeOf row.1).Nodup := by decide
  exact List.inj_on_of_nodup_map hnodup hmem hmem' h

/-- The word of every legal instruction selects the row of its opcode (R88, R94). -/
theorem encode_selects_row (i : Instr) : Laws.EncodesInRow.Statement i := by
  cases i with
  | nop => exact Laws.EncodesInRow.nop
  | sreset => exact Laws.EncodesInRow.sreset
  | msgClear => exact Laws.EncodesInRow.msgClear
  | msgByte b => exact Laws.EncodesInRow.msgByte b
  | msgBits n val => exact Laws.EncodesInRow.msgBits n val
  | msgPad => exact Laws.EncodesInRow.msgPad
  | keyClear => exact Laws.EncodesInRow.keyClear
  | keyByte b => exact Laws.EncodesInRow.keyByte b
  | hInit => exact Laws.EncodesInRow.hInit
  | blkLoad blk => exact Laws.EncodesInRow.blkLoad blk
  | sched => exact Laws.EncodesInRow.sched
  | wkLoad => exact Laws.EncodesInRow.wkLoad
  | round => exact Laws.EncodesInRow.round
  | fold => exact Laws.EncodesInRow.fold
  | compress blk => exact Laws.EncodesInRow.compress blk
  | digest => exact Laws.EncodesInRow.digest
  | hash => exact Laws.EncodesInRow.hash
  | hmac => exact Laws.EncodesInRow.hmac

/-- A word of the row of `msg.bits` decodes only with legal `N` and `VAL` (R84, R86). -/
theorem nbFieldsLegal_of_decode (ho : opcodeOf v = 0x12) (h : decode v = .ok i) : nbFieldsLegal v = true := by
  have hfmt : decode v = decodeNB v .msgBits := decode_eq_decodeFormat (i := .msgBits 0 0) ho
  obtain ⟨-, hlegal, -⟩ := decodeNB_eq_ok_iff.mp (hfmt ▸ h)
  rwa [nbFieldsLegal_eq]

/-- A word that decodes selects the row of its instruction (R88). -/
theorem exists_row_of_decode (h : decode v = .ok i) :
    ∃ row ∈ opcodeMap, selectsRow v row = true ∧ (row.1 = 0x12000000 → nbFieldsLegal v = true) := by
  obtain ⟨rfl, hw⟩ := decode_eq_ok_iff.mp h
  obtain ⟨row, hmem, -, hsel⟩ := encode_selects_row i hw
  refine ⟨row, hmem, hsel, fun hrow => nbFieldsLegal_of_decode ?_ h⟩
  rw [opcodeOf_of_selectsRow hmem hsel, hrow]
  rfl

/-- Every word that selects the row decodes, where `N` and `VAL` are legal in the row of `msg.bits`. -/
def RowDecodes (row : Word × Word) : Prop :=
  ∀ v : Word, selectsRow v row = true → (row.1 = 0x12000000 → nbFieldsLegal v = true) → ∃ i, decode v = .ok i

/-- A row of format `N` has one word (R82). -/
theorem rowDecodes_N {m : Word} (h : decode m = .ok i) : RowDecodes (m, 0xFFFFFFFF) := by
  intro v hsel _
  have hv : v &&& BitVec.allOnes 32 = m := beq_iff_eq.mp hsel
  rw [BitVec.and_allOnes] at hv
  exact ⟨i, hv ▸ h⟩

theorem rowDecodes_I8 {m : Word} {mk : Byte → Instr} (hfmt : ∀ v, opcodeOf v = opcodeOf m → decode v = decodeI8 v mk)
    (hres : m.extractLsb' 8 16 = 0) : RowDecodes (m, 0xFFFFFF00) := by
  intro v hsel _
  have ho : opcodeOf v = opcodeOf m := extract_of_selectsRow hsel rfl
  have hfield : v.extractLsb' 8 16 = m.extractLsb' 8 16 := extract_of_selectsRow hsel rfl
  rw [hfmt v ho]
  exact ⟨_, decodeI8_eq_ok_iff.mpr ⟨hfield.trans hres, rfl⟩⟩

theorem rowDecodes_B16 {m : Word} {mk : BitVec 16 → Instr} (hfmt : ∀ v, opcodeOf v = opcodeOf m → decode v = decodeB16 v mk)
    (hres : m.extractLsb' 16 8 = 0) : RowDecodes (m, 0xFFFF0000) := by
  intro v hsel _
  have ho : opcodeOf v = opcodeOf m := extract_of_selectsRow hsel rfl
  have hfield : v.extractLsb' 16 8 = m.extractLsb' 16 8 := extract_of_selectsRow hsel rfl
  rw [hfmt v ho]
  exact ⟨_, decodeB16_eq_ok_iff.mpr ⟨hfield.trans hres, rfl⟩⟩

theorem rowDecodes_msgBits : RowDecodes (0x12000000, 0xFFFFF000) := by
  intro v hsel hnb
  rw [decode_eq_decodeFormat (i := .msgBits 0 0) (extract_of_selectsRow hsel rfl)]
  exact ⟨_, decodeNB_eq_ok_iff.mpr ⟨extract_of_selectsRow hsel rfl, nbFieldsLegal_eq v ▸ hnb rfl, rfl⟩⟩

/-- Every row decodes by its format, in the order of R88. -/
theorem rowDecodes_of_mem : ∀ row ∈ opcodeMap, RowDecodes row := by
  simp only [opcodeMap, List.forall_mem_cons]
  exact ⟨rowDecodes_N (i := .nop) rfl, rowDecodes_N (i := .sreset) rfl, rowDecodes_N (i := .msgClear) rfl,
    rowDecodes_I8 (fun _ => decode_eq_decodeFormat (i := .msgByte 0)) rfl, rowDecodes_msgBits, rowDecodes_N (i := .msgPad) rfl,
    rowDecodes_N (i := .keyClear) rfl, rowDecodes_I8 (fun _ => decode_eq_decodeFormat (i := .keyByte 0)) rfl,
    rowDecodes_N (i := .hInit) rfl, rowDecodes_B16 (fun _ => decode_eq_decodeFormat (i := .blkLoad 0)) rfl,
    rowDecodes_N (i := .sched) rfl, rowDecodes_N (i := .wkLoad) rfl, rowDecodes_N (i := .round) rfl, rowDecodes_N (i := .fold) rfl,
    rowDecodes_B16 (fun _ => decode_eq_decodeFormat (i := .compress 0)) rfl, rowDecodes_N (i := .digest) rfl,
    rowDecodes_N (i := .hash) rfl, rowDecodes_N (i := .hmac) rfl, List.forall_mem_nil _⟩

/-- Settles O3: a word has one opcode, so at most one row; the row's format decides whether it decodes. -/
theorem opcodeMapDecides : Obligations.OpcodeMapDecides := by
  refine ⟨fun v => ⟨fun ⟨i, h⟩ => exists_row_of_decode h,
    fun ⟨row, hmem, hsel, hnb⟩ => rowDecodes_of_mem row hmem v hsel hnb⟩, ?_⟩
  intro v row row' hmem hmem' hsel hsel'
  exact row_eq_of_opcodeOf_eq hmem hmem' ((opcodeOf_of_selectsRow hmem hsel).symm.trans (opcodeOf_of_selectsRow hmem' hsel'))

/-- Settles O4, word by word. -/
theorem writtenOutWordsDecode : Obligations.WrittenOutWordsDecode :=
  ⟨rfl, rfl, rfl, rfl, rfl, rfl, rfl, rfl, rfl, rfl, rfl⟩

end Sys2Proof
end

/-! # The word functions bit by bit

What the functions of `40_word_ops.md` do to one bit of their operands (R102 to R107); the sigma functions (R108 to R111) are
exclusive ors of these. -/
section
namespace Sys2Proof.Machine

/-- R102: a rotation by at most 31 is the library's rotation. -/
theorem rotr_eq_rotateRight (x : Word) {n : Nat} (hn : n ≤ 31) : rotr x n = x.rotateRight n := by
  simp only [rotr, BitVec.rotateRight_def, Nat.mod_eq_of_lt (Nat.lt_succ_of_le hn)]

/-- R102: bit `i` comes from bit `i + n`, which wraps around exactly when it lies past the top. -/
theorem rotr_getLsbD (x : Word) {n i : Nat} (hn : n ≤ 31) (hi : i < 32) :
    (rotr x n).getLsbD i = x.getLsbD ((i + n) % 32) := by
  rw [rotr_eq_rotateRight x hn, BitVec.getLsbD_rotateRight, Nat.mod_eq_of_lt (Nat.lt_succ_of_le hn)]
  by_cases hlow : i < 32 - n
  · have hsrc : (i + n) % 32 = n + i := by omega
    simp only [hlow, decide_true, cond_true, hsrc]
  · have hsrc : (i + n) % 32 = i - (32 - n) := by omega
    simp only [hlow, decide_false, cond_false, hi, decide_true, Bool.true_and, hsrc]

/-- R103: bit `i` comes from bit `i + n`, and the bits with no source are 0. -/
theorem shr_getLsbD (x : Word) (n i : Nat) : (shr x n).getLsbD i = (decide (i + n < 32) && x.getLsbD (i + n)) := by
  rw [shr, BitVec.getLsbD_ushiftRight, Nat.add_comm n i]
  by_cases h : i + n < 32
  · simp only [h, decide_true, Bool.true_and]
  · simp only [h, decide_false, Bool.false_and, BitVec.getLsbD_of_ge x (i + n) (Nat.le_of_not_lt h)]

theorem shr_toNat (x : Word) (n : Nat) : (shr x n).toNat = x.toNat / 2 ^ n := by
  rw [shr, BitVec.toNat_ushiftRight, Nat.shiftRight_eq_div_pow]

theorem not32_toNat (x : Word) : (not32 x).toNat = 0xFFFFFFFF - x.toNat := BitVec.toNat_not

theorem not32_getLsbD (x : Word) {i : Nat} (hi : i < 32) : (not32 x).getLsbD i = !x.getLsbD i := by
  simp only [not32, BitVec.getLsbD_not, hi, decide_true, Bool.true_and]

/-- R106: `e` chooses between `f` and `g`. -/
theorem ch_getLsbD (e f g : Word) {i : Nat} (hi : i < 32) :
    (ch e f g).getLsbD i = if e.getLsbD i then f.getLsbD i else g.getLsbD i := by
  simp only [ch, BitVec.getLsbD_xor, BitVec.getLsbD_and, not32_getLsbD e hi]
  cases e.getLsbD i <;> simp

/-- R107 on one bit: the exclusive or of the three conjunctions is the majority. -/
theorem xor_and_eq_majority (a b c : Bool) :
    ((a && b) ^^ (a && c) ^^ (b && c)) = decide (2 ≤ a.toNat + b.toNat + c.toNat) := by
  revert a b c; decide

theorem maj_getLsbD (a b c : Word) (i : Nat) :
    (maj a b c).getLsbD i = decide (2 ≤ (a.getLsbD i).toNat + (b.getLsbD i).toNat + (c.getLsbD i).toNat) := by
  simp only [maj, BitVec.getLsbD_xor, BitVec.getLsbD_and, xor_and_eq_majority]

/-- Settles O34, function by function. -/
theorem wordFunctions : Obligations.WordFunctions :=
  ⟨fun x _ _ _ hn hi => rotr_getLsbD x hn hi, shr_toNat, not32_toNat, fun e f g _ hi => ch_getLsbD e f g hi,
    fun a b c i _ => maj_getLsbD a b c i⟩

/-- Three rotations (R108, R109). -/
theorem xor_rotr_rotr_rotr_getLsbD (x : Word) {l m n i : Nat} (hl : l ≤ 31) (hm : m ≤ 31) (hn : n ≤ 31) (hi : i < 32) :
    (rotr x l ^^^ rotr x m ^^^ rotr x n).getLsbD i =
      ((x.getLsbD ((i + l) % 32) ^^ x.getLsbD ((i + m) % 32)) ^^ x.getLsbD ((i + n) % 32)) := by
  simp only [BitVec.getLsbD_xor, rotr_getLsbD x hl hi, rotr_getLsbD x hm hi, rotr_getLsbD x hn hi]

/-- Two rotations and a shift (R110, R111). -/
theorem xor_rotr_rotr_shr_getLsbD (x : Word) {l m i : Nat} (n : Nat) (hl : l ≤ 31) (hm : m ≤ 31) (hi : i < 32) :
    (rotr x l ^^^ rotr x m ^^^ shr x n).getLsbD i =
      ((x.getLsbD ((i + l) % 32) ^^ x.getLsbD ((i + m) % 32)) ^^ (decide (i + n < 32) && x.getLsbD (i + n))) := by
  simp only [BitVec.getLsbD_xor, rotr_getLsbD x hl hi, rotr_getLsbD x hm hi, shr_getLsbD]

/-- Settles O35: each sigma function is an exclusive or of rotations and shifts, taken bit by bit. -/
theorem sigmaFunctions : Obligations.SigmaFunctions := fun x _ hi =>
  ⟨xor_rotr_rotr_rotr_getLsbD x (by decide) (by decide) (by decide) hi,
    xor_rotr_rotr_rotr_getLsbD x (by decide) (by decide) (by decide) hi,
    xor_rotr_rotr_shr_getLsbD x 3 (by decide) (by decide) hi,
    xor_rotr_rotr_shr_getLsbD x 10 (by decide) (by decide) hi⟩

end Sys2Proof.Machine
end

/-! # The constant tables as roots of primes

`rootWord k p` holds the first 32 bits of the fractional part of the `k`-th root of `p`: the library's integer root of `p * 2^(32k)`
without its bits above 32. The tables of R112 and R113 are these words for the first primes. -/
section
namespace Sys2Proof.Machine

/-- The low 32 bits of the integer part of `2^32` times the `k`-th root of `p`. -/
def rootWord (k p : Nat) : Word := BitVec.ofNat 32 (Nat.nthRoot k (p * 2 ^ (32 * k)))

/-- The integer root that `rootWord` cuts off is the one between the bounds. -/
theorem exists_root_rootWord {k : Nat} (hk : k ≠ 0) (p : Nat) :
    ∃ r : Nat, r ^ k ≤ p * 2 ^ (32 * k) ∧ p * 2 ^ (32 * k) < (r + 1) ^ k ∧ rootWord k p = BitVec.ofNat 32 r :=
  ⟨_, Nat.pow_nthRoot_le_iff.mpr (.inl hk), Nat.lt_pow_nthRoot_add_one hk _, rfl⟩

/-- The first 64 primes. -/
def firstPrimes : List Nat :=
  [2, 3, 5, 7, 11, 13, 17, 19, 23, 29, 31, 37, 41, 43, 47, 53, 59, 61, 67, 71, 73, 79, 83, 89, 97, 101, 103, 107, 109, 113, 127,
   131, 137, 139, 149, 151, 157, 163, 167, 173, 179, 181, 191, 193, 197, 199, 211, 223, 227, 229, 233, 239, 241, 251, 257, 263,
   269, 271, 277, 281, 283, 293, 307, 311]

/-- Below `18 ^ 2` a number is prime when no `d < 18` with `d * d ≤ n` divides it. -/
theorem prime_iff_no_factor_lt_18 {n : Nat} (hn : n < 18 * 18) :
    n.Prime ↔ 2 ≤ n ∧ ∀ d < 18, 2 ≤ d → d * d ≤ n → ¬ d ∣ n := by
  simp only [Nat.prime_def_le_sqrt, Nat.le_sqrt]
  exact and_congr_right fun _ => ⟨fun h d _ => h d,
    fun h d hd hsq => h d (Nat.mul_self_lt_mul_self_iff.mp (hsq.trans_lt hn)) hd hsq⟩

theorem filter_prime_range_312 : (List.range 312).filter Nat.Prime = firstPrimes := by
  have htrial : (List.range 312).filter (fun n => 2 ≤ n ∧ ∀ d < 18, 2 ≤ d → d * d ≤ n → ¬ d ∣ n) = firstPrimes := by
    decide +kernel
  rw [← htrial]
  refine List.filter_congr fun n hmem => ?_
  have hn : n < 18 * 18 := by have := List.mem_range.mp hmem; omega
  simp only [prime_iff_no_factor_lt_18 hn]

/-- R112: the initial words are the square roots of the first eight primes. -/
theorem iv_eq_rootWord (i : Fin 8) : iv[i] = rootWord 2 ([2, 3, 5, 7, 11, 13, 17, 19].getD i.val 0) := by
  revert i; decide +kernel

/-- R113: the round constants are the cube roots of the first 64 primes. -/
theorem kTable_eq_map_rootWord : kTable = firstPrimes.map (rootWord 3) := by decide +kernel

theorem roundK_eq_rootWord (t : Nat) : roundK t = rootWord 3 (((List.range 312).filter Nat.Prime).getD t 0) := by
  have hzero : (0 : Word) = rootWord 3 0 := by decide
  rw [roundK, kTable_eq_map_rootWord, filter_prime_range_312, hzero, List.getD_map]

/-- Settles O36: every word of the tables is a `rootWord` of its prime. -/
theorem constantTables : Obligations.ConstantTables := by
  refine ⟨fun i => ?_, fun t => ?_⟩
  · rw [iv_eq_rootWord]
    exact exists_root_rootWord (by decide) _
  · rw [roundK_eq_rootWord]
    exact exists_root_rootWord (by decide) _

end Sys2Proof.Machine
end

/-! # Bit strings of numbers and of byte strings

How `bitsDown` splits, and the bits of bytes: what appending a byte to a partial tail and padding whole bytes come down to. -/
section
namespace Sys2Proof.Machine

/-- The high bits of a number come first, then its low ones. -/
theorem bitsDown_add (m n v : Nat) : bitsDown (m + n) v = bitsDown m (v / 2 ^ n) ++ bitsDown n v := by
  induction m with
  | zero => simp [bitsDown]
  | succ m ih => rw [Nat.succ_add, bitsDown_succ, ih, bitsDown_succ, Nat.testBit_div_two_pow, List.cons_append]

/-- A number put above `n` bits comes before them. -/
theorem bitsDown_mul_add (m n v c : Nat) (hc : c < 2 ^ n) : bitsDown (m + n) (v * 2 ^ n + c) = bitsDown m v ++ bitsDown n c := by
  have hhigh : (v * 2 ^ n + c) / 2 ^ n = v := by
    rw [Nat.mul_comm, Nat.mul_add_div (by positivity), Nat.div_eq_of_lt hc, Nat.add_zero]
  have hlow : (v * 2 ^ n + c) % 2 ^ n = c := by rw [Nat.mul_add_mod_self_right, Nat.mod_eq_of_lt hc]
  rw [bitsDown_add, hhigh, ← bitsDown_mod n n _ le_rfl, hlow]

theorem byteBits_ofNat (v : Nat) : byteBits (BitVec.ofNat 8 v) = bitsDown 8 v := by
  rw [byteBits, BitVec.toNat_ofNat, bitsDown_mod 8 8 v le_rfl]

/-- The bits of a buffer through the bits of its bytes (R20). -/
theorem bits_eq_flatMap_byteBits (m : BitBuffer) : m.bits = m.data.flatMap byteBits ++ bitsDown m.tc.val m.tv.toNat := rfl

theorem flatMap_byteBits_replicate_zero (n : Nat) : (List.replicate n 0).flatMap byteBits = List.replicate (8 * n) false := by
  induction n with
  | zero => rfl
  | succ n ih =>
    rw [List.replicate_succ, List.flatMap_cons, ih, Nat.mul_succ, Nat.add_comm, List.replicate_add]
    rfl

/-- The low `n` bytes of a number, most significant first, have its low `8n` bits. -/
theorem flatMap_byteBits_bigEndian (n v : Nat) :
    ((List.range n).reverse.map fun j => BitVec.ofNat 8 (v / 256 ^ j)).flatMap byteBits = bitsDown (8 * n) v := by
  induction n with
  | zero => rfl
  | succ n ih =>
    rw [List.range_succ, List.reverse_concat, List.map_cons, List.flatMap_cons, ih, byteBits_ofNat, Nat.mul_succ, Nat.add_comm,
      bitsDown_add, pow_mul]
    rfl

end Sys2Proof.Machine
end

/-! # The commands on the message buffer -/
section
namespace Sys2Proof.Machine

/-! ### `msg.byte` and `msg.bits` -/

/-- The buffer `m` with the byte `b` after its bits: `b` straddles the tail (R135). -/
def BitBuffer.addByte (m : BitBuffer) (b : Byte) : BitBuffer where
  data := m.data ++ [BitVec.ofNat 8 (m.tv.toNat * 2 ^ (8 - m.tc.val) + b.toNat / 2 ^ m.tc.val)]
  tv := BitVec.ofNat 8 (b.toNat % 2 ^ m.tc.val)
  tc := m.tc

section straddle

variable (b : Byte) {t k : Nat} (htk : t + k = 8)
include htk

/-- The bits of a byte are its top `k` bits and then its low `t`. -/
theorem byteBits_eq_append : byteBits b = bitsDown k (b.toNat / 2 ^ t) ++ bitsDown t b.toNat := by
  rw [← bitsDown_add, Nat.add_comm, htk, byteBits]

/-- The byte made of a tail of `t` bits and the top `k` bits of `b`. -/
theorem bitsDown_tail_add_top (v : Nat) :
    bitsDown 8 (v * 2 ^ k + b.toNat / 2 ^ t) = bitsDown t v ++ bitsDown k (b.toNat / 2 ^ t) := by
  have htop : b.toNat / 2 ^ t < 2 ^ k := by
    rw [Nat.div_lt_iff_lt_mul (by positivity), ← pow_add, Nat.add_comm, htk]
    exact b.isLt
  have hsplit := bitsDown_mul_add t k v _ htop
  rwa [htk] at hsplit

end straddle

/-- The top bits of `b` complete the tail, and its low bits follow. -/
theorem addByte_bits (m : BitBuffer) (b : Byte) : (m.addByte b).bits = m.bits ++ byteBits b := by
  have htc : m.tc.val + (8 - m.tc.val) = 8 := by omega
  have hlow : bitsDown m.tc.val (BitVec.ofNat 8 (b.toNat % 2 ^ m.tc.val)).toNat = bitsDown m.tc.val b.toNat := by
    rw [BitVec.toNat_ofNat, bitsDown_mod _ 8 _ (by omega), bitsDown_mod _ _ _ le_rfl]
  rw [byteBits_eq_append b htc, bits_eq_flatMap_byteBits, bits_eq_flatMap_byteBits]
  simp only [BitBuffer.addByte, List.flatMap_append, List.flatMap_singleton, byteBits_ofNat, bitsDown_tail_add_top b htc, hlow,
    List.append_assoc]

theorem addByte_clean (m : BitBuffer) (b : Byte) : (m.addByte b).tv.toNat < 2 ^ (m.addByte b).tc.val :=
  (BitVec.toNat_ofNat _ _).trans_le (Nat.mod_le _ _) |>.trans_lt (Nat.mod_lt _ (by positivity))

/-- Appending the bits of a byte one by one straddles the byte over the tail (R131, R135). -/
theorem appendBits_byteBits {m : BitBuffer} (h : m.tv.toNat < 2 ^ m.tc.val) (b : Byte) :
    appendBits m (byteBits b) = m.addByte b :=
  BitBuffer.ext_bits _ _ (appendBits_clean _ _ h) (addByte_clean m b) (by rw [appendBits_bits, addByte_bits])

/-- Settles O25: a buffer with a clean tail is determined by its bits. -/
theorem msgByteAppends : Obligations.MsgByteAppends := by
  intro s b _ hclean hfit
  rw [(Did.msgByte s b hfit).exec, appendBits_byteBits hclean]
  rfl

/-- Settles O26: both commands append their bits one by one. -/
theorem msgBitsAppends : Obligations.MsgBitsAppends := by
  intro s n val _ hclean _ _ _ hfit
  refine ⟨appendBits s.msg (valBits n val), (Did.msgBits s n val hfit).exec, appendBits_bits _ _, appendBits_clean _ _ hclean, ?_⟩
  rintro rfl
  exact (Did.msgByte s val hfit).exec

/-! ### The padding and `msg.pad` -/

/-- The padded message has no tail, so its bytes have all of its bits (R142). -/
theorem flatMap_byteBits_pad (m : BitBuffer) : (pad m).flatMap byteBits =
    m.bits ++ true :: List.replicate (padCount m.lenBits) false ++ bitsDown 64 m.lenBits := by
  have htail : bitsDown (padBuffer m).tc.val (padBuffer m).tv.toNat = [] := by rw [padBuffer_tc]; rfl
  have hbits := bits_eq_flatMap_byteBits (padBuffer m)
  rw [htail, List.append_nil] at hbits
  rw [pad_eq, ← hbits, padBuffer, appendBits_bits, List.append_assoc]

/-- Settles O29: the bits and the length of `pad`. -/
theorem padBitLayout : Obligations.PadBitLayout := by
  intro m
  have hlen := pad_length m
  refine ⟨?_, hlen, fun _ => by omega, fun _ _ => by omega⟩
  rw [ofBytes_bits, padCount_int]
  refine (flatMap_byteBits_pad m).trans ?_
  simp only [List.append_assoc, List.cons_append, List.nil_append, bitsDown]

/-- After whole bytes the 1 bit and the zero bits make the byte `0x80` and zero bytes (R144). -/
theorem one_then_zeros_eq_bytes (n : Nat) : true :: List.replicate (padCount (8 * n)) false =
    ((0x80 : Byte) :: List.replicate ((padCount (8 * n) - 7) / 8) 0).flatMap byteBits := by
  have hcount : padCount (8 * n) = 7 + 8 * ((padCount (8 * n) - 7) / 8) := by unfold padCount; omega
  rw [List.flatMap_cons, flatMap_byteBits_replicate_zero]
  conv_lhs => rw [hcount, List.replicate_add]
  rfl

/-- Settles O30: both byte strings have the same bits. -/
theorem padOfWholeBytes : Obligations.PadOfWholeBytes := by
  intro s
  have hcount : ((447 - 8 * (s.length : ℤ)) % 512).toNat = padCount (8 * s.length) := padCount_int (8 * s.length)
  rw [hcount]
  refine flatMap_bits_inj _ _ ((flatMap_byteBits_pad (.ofBytes s)).trans ?_)
  have hlen : (BitBuffer.ofBytes s).lenBits = 8 * s.length := rfl
  have hlength := flatMap_byteBits_bigEndian 8 (8 * s.length)
  rw [hlen, one_then_zeros_eq_bytes, ofBytes_bits, ← hlength]
  simp only [List.flatMap_append, List.append_assoc, List.flatMap_cons]
  rfl

/-- Settles O31: the effect of `msg.pad` where R21 holds; where it does not, the check fails (U16). -/
theorem msgPadStoresPaddedCopy : Obligations.MsgPadStoresPaddedCopy := by
  refine fun s _ => ⟨fun hok => (Did.msgPad s hok).exec, fun hbad => ?_⟩
  simp only [exec, execMsgPad, hbad, Bool.false_eq_true, if_false]

end Sys2Proof.Machine
end

/-! # The buffer commands beside the files -/
section
namespace Sys2Proof.Machine

variable {s t : State} {i : Instr} {c : ErrCode}

/-- The six buffer commands (R130). -/
inductive BufferCommand : Instr → Prop where
  | msgClear : BufferCommand .msgClear
  | msgByte (b) : BufferCommand (.msgByte b)
  | msgBits (n val) : BufferCommand (.msgBits n val)
  | msgPad : BufferCommand .msgPad
  | keyClear : BufferCommand .keyClear
  | keyByte (b) : BufferCommand (.keyByte b)

/-- `s` with the files `H`, `W`, `WK`, `RC` and `DG` of `u`, and their valid bits. -/
def State.withFilesOf (s u : State) : State :=
  { s with h := u.h, hv := u.hv, w := u.w, wv := u.wv, wk := u.wk, wkv := u.wkv, rc := u.rc, dg := u.dg, dv := u.dv }

@[simp] theorem withFilesOf_msg (s u : State) : (s.withFilesOf u).msg = s.msg := rfl
@[simp] theorem setMsg_withFilesOf (s u : State) (m : BitBuffer) :
    (s.setMsg m).withFilesOf u = (s.withFilesOf u).setMsg m := rfl
@[simp] theorem setPadded_withFilesOf (s u : State) (p : List Byte) :
    (s.setPadded p).withFilesOf u = (s.withFilesOf u).setPadded p := rfl

/-- The effect of a buffer command does not depend on the files. -/
theorem Did.withFilesOf (d : Did i s t) (hi : BufferCommand i) (u : State) : Did i (s.withFilesOf u) (t.withFilesOf u) := by
  cases d with
  | msgClear => exact .msgClear _
  | msgByte _ b hfit => simpa using Did.msgByte (s.withFilesOf u) b hfit
  | msgBits _ n val hfit => simpa using Did.msgBits (s.withFilesOf u) n val hfit
  | msgPad _ hok => simpa using Did.msgPad (s.withFilesOf u) hok
  | keyClear => exact .keyClear _
  | keyByte _ b hfit => exact .keyByte _ b hfit
  | _ => cases hi

/-- Nor do its errors. -/
theorem Raised.withFilesOf (r : Raised i s c) (hi : BufferCommand i) (u : State) : Raised i (s.withFilesOf u) c := by
  cases r with
  | msgByte _ b hfull => exact .msgByte _ b hfull
  | msgBits _ n val hfull => exact .msgBits _ n val hfull
  | keyByte _ b hfull => exact .keyByte _ b hfull
  | _ => cases hi

theorem exec_withFilesOf (hi : BufferCommand i) (h : exec i s = .next t) (u : State) :
    exec i (s.withFilesOf u) = .next (t.withFilesOf u) := by
  obtain d | ⟨c, rfl, r⟩ := exec_next i s t h
  · exact (d.withFilesOf hi u).exec
  · exact (r.withFilesOf hi u).exec

/-- With the files they have, the command answers the state it answers: it does not write them. -/
theorem withFilesOf_eq_of_exec (hi : BufferCommand i) (h : exec i s = .next t) : t.withFilesOf s = t := by
  have hs : exec i s = .next (t.withFilesOf s) := exec_withFilesOf hi h s
  rw [h] at hs
  exact (Host.Outcome.next.inj hs).symm

/-- Settles O32: that the files are not written follows from that they are not read. -/
theorem bufferCommandsIgnoreTheFiles : Obligations.BufferCommandsIgnoreTheFiles := by
  intro i s t h w wk dg hv wkv dv wv rc hi he
  have hbuf : BufferCommand i := by
    obtain hmem | ⟨b, rfl | rfl⟩ | ⟨n, val, rfl⟩ := hi
    · simp only [List.mem_cons, List.not_mem_nil, or_false] at hmem
      obtain rfl | rfl | rfl := hmem
      · exact .msgClear
      · exact .msgPad
      · exact .keyClear
    · exact .msgByte b
    · exact .keyByte b
    · exact .msgBits n val
  refine ⟨exec_withFilesOf hbuf he
    { s with h := h, hv := hv, w := w, wv := wv, wk := wk, wkv := wkv, rc := rc, dg := dg, dv := dv }, ?_⟩
  rw [← withFilesOf_eq_of_exec hbuf he]
  exact ⟨rfl, rfl, rfl, rfl, rfl, rfl, rfl, rfl, rfl⟩

end Sys2Proof.Machine
end

/-! # What the host's loads build -/
section
namespace Sys2Proof.Machine

variable {s t : State} {i : Instr}

/-- Outside the fault state the word of a legal command runs the command (R51, R66). -/
theorem issueAll_encode_cons (hf : s.fault = false) (hw : i.wellFormed = true) (he : exec i s = .next t) (vs : List Word) :
    issueAll (encode i :: vs) s = issueAll vs t := by
  rw [issueAll, cmdWrite_run _ s hf, runCommand_ok _ i s (decodeOfEncode i hw), he]

@[simp] theorem setMsg_setMsg (s : State) (m m' : BitBuffer) : (s.setMsg m).setMsg m' = s.setMsg m' := rfl

/-- `msg.byte` once for each byte (R96). -/
theorem issueAll_msgByte (s : State) (bytes : List Byte) (hf : s.fault = false)
    (hfit : s.msg.lenBits + 8 * bytes.length ≤ 8 * s.par.msgCap) :
    issueAll (bytes.map fun b => encode (.msgByte b)) s = .next (s.setMsg (appendBits s.msg (bytes.flatMap byteBits))) := by
  induction bytes generalizing s with
  | nil => rfl
  | cons b bytes ih =>
    rw [List.length_cons] at hfit
    have hrest := ih (s.setMsg (appendBits s.msg (byteBits b))) ((State.setMsg_fault s _).trans hf) (by
      rw [State.setMsg_msg, State.setMsg_par, appendBits_lenBits, byteBits_length]
      omega)
    rw [List.map_cons, issueAll_encode_cons hf rfl (Did.msgByte s b (by omega)).exec, hrest, setMsg_setMsg, State.setMsg_msg,
      ← appendBits_append, List.flatMap_cons]

/-- The bytes of a byte string, appended to the empty buffer, are the buffer of R148. -/
theorem appendBits_empty_bytes (bytes : List Byte) : appendBits .empty (bytes.flatMap byteBits) = BitBuffer.ofBytes bytes :=
  BitBuffer.ext_bits _ _ (appendBits_clean _ _ (by decide)) Nat.zero_lt_one (by rw [appendBits_bits, ofBytes_bits]; rfl)

/-! ### `msg.bitstr` -/

/-- One more digit doubles the number (R93). -/
theorem bitsValue_concat (xs : List Bool) (x : Bool) : bitsValue (xs ++ [x]) = bitsValue xs * 2 + x.toNat := by
  simp only [bitsValue, List.foldl_append, List.foldl_cons, List.foldl_nil, Nat.mul_comm]

theorem bitsValue_lt (xs : List Bool) : bitsValue xs < 2 ^ xs.length := by
  induction xs using List.reverseRecOn with
  | nil => decide
  | append_singleton xs x ih =>
    rw [bitsValue_concat, List.length_append, List.length_singleton, pow_succ]
    have hx := x.toNat_le
    omega

/-- The binary number of a chunk has the chunk's bits (R93). -/
theorem bitsDown_bitsValue (xs : List Bool) : bitsDown xs.length (bitsValue xs) = xs := by
  induction xs using List.reverseRecOn with
  | nil => rfl
  | append_singleton xs x ih => rw [bitsValue_concat, List.length_append, List.length_singleton, bitsDown_double_add, ih]

/-- The command for a chunk of up to 8 bits (R96). -/
def chunkCommand (xs : List Bool) : Instr := .msgBits xs.length (BitVec.ofNat 8 (bitsValue xs))

theorem bitstrChunks_succ (fuel : Nat) {bits : List Bool} (h : bits ≠ []) :
    bitstrChunks (fuel + 1) bits = chunkCommand (bits.take 8) :: bitstrChunks fuel (bits.drop 8) := if_neg h

section chunk

variable {xs : List Bool} (h8 : xs.length ≤ 8)
include h8

/-- The binary number of the chunk fits a byte. -/
theorem toNat_ofNat_bitsValue : (BitVec.ofNat 8 (bitsValue xs)).toNat = bitsValue xs :=
  (BitVec.toNat_ofNat _ _).trans (Nat.mod_eq_of_lt ((bitsValue_lt xs).trans_le (Nat.pow_le_pow_right (by decide) h8)))

/-- The operands of the command are legal (R84). -/
theorem chunkCommand_wellFormed (h0 : xs ≠ []) : (chunkCommand xs).wellFormed = true :=
  (bitsLegal_iff _ _).mpr ⟨List.length_pos_iff.mpr h0, h8, (toNat_ofNat_bitsValue h8).symm ▸ bitsValue_lt xs⟩

/-- The command appends the chunk (R136). -/
theorem exec_chunkCommand (hfit : s.msg.lenBits + xs.length ≤ 8 * s.par.msgCap) :
    exec (chunkCommand xs) s = .next (s.setMsg (appendBits s.msg xs)) := by
  have hbits : valBits xs.length (BitVec.ofNat 8 (bitsValue xs)) = xs := by
    rw [valBits, toNat_ofNat_bitsValue h8, bitsDown_bitsValue]
  rw [chunkCommand, (Did.msgBits s _ _ hfit).exec, hbits]

end chunk

/-- `msg.bits` once for each chunk (R96): enough turns for all chunks append all bits. -/
theorem issueAll_bitstrChunks (fuel : Nat) (s : State) (bits : List Bool) (hf : s.fault = false) (hfuel : bits.length ≤ fuel)
    (hfit : s.msg.lenBits + bits.length ≤ 8 * s.par.msgCap) :
    issueAll ((bitstrChunks fuel bits).map encode) s = .next (s.setMsg (appendBits s.msg bits)) := by
  induction fuel generalizing s bits with
  | zero =>
    rw [List.length_eq_zero_iff.mp (Nat.le_zero.mp hfuel)]
    rfl
  | succ fuel ih =>
    by_cases hnil : bits = []
    · rw [hnil]
      rfl
    · have hlen : (bits.take 8).length + (bits.drop 8).length = bits.length := by
        rw [← List.length_append, List.take_append_drop]
      have h8 : (bits.take 8).length ≤ 8 := List.length_take_le _ _
      have h0 : bits.take 8 ≠ [] := by simpa using hnil
      have hpos := List.length_pos_iff.mpr h0
      have hrest := ih (s.setMsg (appendBits s.msg (bits.take 8))) (bits.drop 8) hf (by omega) (by
        rw [State.setMsg_msg, State.setMsg_par, appendBits_lenBits]
        omega)
      rw [bitstrChunks_succ fuel hnil, List.map_cons,
        issueAll_encode_cons hf (chunkCommand_wellFormed h8 h0) (exec_chunkCommand h8 (by omega)), hrest, setMsg_setMsg,
        State.setMsg_msg, ← appendBits_append, List.take_append_drop]

/-- Settles O33: the commands of each expansion append their bits in order. -/
theorem hostLoadsBuildTheMessage : Obligations.HostLoadsBuildTheMessage := by
  refine fun s hf => ⟨fun bytes hfit => ?_, fun bits hfit =>
    ⟨_, issueAll_bitstrChunks bits.length s bits hf le_rfl hfit, appendBits_bits _ _⟩⟩
  have hempty : BitBuffer.empty.lenBits + 8 * bytes.length ≤ 8 * s.par.msgCap := by
    have hzero : BitBuffer.empty.lenBits = 0 := rfl
    omega
  rw [Pseudo.expansion, List.map_cons, List.map_map, issueAll_encode_cons hf rfl (Did.msgClear s).exec]
  refine (issueAll_msgByte (s.setMsg .empty) bytes hf hempty).trans ?_
  rw [State.setMsg_msg, appendBits_empty_bytes]
  rfl

end Sys2Proof.Machine
end

/-! # The byte form of words and digests -/
section
namespace Sys2Proof.Machine

/-- Byte `j` of a word, most significant first (R146). -/
theorem bytesBE_getD_toNat (w : Word) (j : Fin 4) : ((bytesBE w).getD j.val 0).toNat = w.toNat / 256 ^ (3 - j.val) % 256 := by
  fin_cases j
  · exact extract_toNat w 24 8
  · exact extract_toNat w 16 8
  · exact extract_toNat w 8 8
  · exact extract_toNat w 0 8

/-- Byte `4i + j` of a string of words is byte `j` of word `i` (R146). -/
theorem flatMap_bytesBE_getD (ws : List Word) (i j : Nat) (hj : j < 4) (hi : i < ws.length) :
    (ws.flatMap bytesBE).getD (4 * i + j) 0 = (bytesBE ws[i]).getD j 0 := by
  induction ws generalizing i with
  | nil => cases hi
  | cons w ws ih =>
    have hlen := bytesBE_length w
    rw [List.flatMap_cons]
    cases i with
    | zero => rw [Nat.mul_zero, Nat.zero_add, List.getD_append _ _ _ _ (by omega)]; rfl
    | succ i =>
      have hsub : 4 * (i + 1) + j - (bytesBE w).length = 4 * i + j := by omega
      rw [List.getD_append_right _ _ _ _ (by omega), hsub]
      exact ih i (Nat.lt_of_succ_lt_succ hi)

/-- Settles O47: byte `4i + j` of the digest is byte `j` of word `i`, which is a field of the word. -/
theorem digestByteOrder : Obligations.DigestByteOrder := by
  refine fun d => ⟨digestBytes_length d, digestWords_digestBytes d, fun i j => ?_, bytesBE_getD_toNat⟩
  rw [digestBytes, flatMap_bytesBE_getD _ _ _ j.isLt (by simp), bytesBE_getD_toNat]
  simp

end Sys2Proof.Machine
end

/-! # The SHA-256 commands: what each does to the files

Each proof takes the effect of its command from `Did`; what stands between it and the statement is a fact about the words. -/
section
namespace Sys2Proof.Machine

variable {s t : State} {i : Instr}

/-! ### Moves between the files -/

/-- Settles O37: the three effects, and the words of the IV. -/
theorem hashStateMoves : Obligations.HashStateMoves :=
  fun s _ => ⟨(Did.hInit s).exec, fun hhv => (Did.wkLoad s hhv).exec, fun hhv => (Did.digest s hhv).exec⟩

/-! ### The schedule -/

/-- A valid word of `W` reads as it is (R63). -/
theorem readReg_w_of_valid {i : Fin 64} (h : schedWordValid s i.val = true) : readReg (.w i) s = some (wordAt s.w i.val) := by
  rw [readReg, if_pos h, wordAt_eq _ _ i.isLt]
  rfl

theorem readReg_w_of_invalid {i : Fin 64} (h : schedWordValid s i.val = false) : readReg (.w i) s = none := by
  rw [readReg, h]
  rfl

/-- Settles O38: the low words are those of the block, which is grouped most significant byte first. -/
theorem blkLoadGroupsBlock : Obligations.BlkLoadGroupsBlock := by
  refine fun s blk _ hpbv hblk => ⟨_, (Did.blkLoad s blk hpbv hblk).exec, rfl, fun i hi => ?_, fun i hi => ?_⟩
  · refine ⟨_, readReg_w_of_valid (decide_eq_true hi), ?_⟩
    rw [State.setSched_w, loadLow_get _ _ _ i.isLt, if_pos hi, blockWords_getD _ _ _ hblk hi, be32_toNat]
  · exact readReg_w_of_invalid (decide_eq_false (Nat.not_lt.mpr hi))

/-- The second of two writes of `W` counts. -/
@[simp] theorem setSched_setSched (s : State) (x x' : Vector Word 64) (v v' : SchedValid) :
    (s.setSched x v).setSched x' v' = s.setSched x' v' := rfl

/-- Settles O39: the recurrence over the expanded words, and that it fixes them. -/
theorem schedExpands : Obligations.SchedExpands := by
  refine fun s _ hwv => ⟨expand s.w, (Did.sched s hwv).exec, fun i hi => ?_, fun i hi => ?_, ?_⟩
  · have hlow := expand_low s.w i hi
    rwa [wordAt_eq _ _ i.isLt, wordAt_eq _ _ i.isLt] at hlow
  · exact (wordAt_eq _ _ i.isLt).symm.trans (expand_high s.w i hi i.isLt)
  · have hagain := (Did.sched (s.setSched (expand s.w) .full) nofun).exec
    rwa [State.setSched_w, expand_expand, setSched_setSched] at hagain

/-! ### Rounds and `fold` -/

theorem setWork_of_wkv (h : s.wkv = true) (x : Vector Word 8) (n : Fin 65) : s.setWork x n = { s with wk := x, rc := n } := by
  simp only [State.setWork, h]

theorem setHash_of_hv (h : s.hv = true) (x : Vector Word 8) : s.setHash x = { s with h := x } := by
  simp only [State.setHash, h]

/-- Settles O40: `round_fn` on the eight registers by name. -/
theorem roundComputes : Obligations.RoundComputes := by
  intro s a b c d e f g h _ hwkv hwv hrc hwk
  have hne : s.rc ≠ 64 := Fin.ne_of_val_ne (Nat.ne_of_lt hrc)
  have hnext : (s.rc + 1).val = s.rc.val + 1 := Fin.val_add_one_of_lt' (by omega)
  refine ⟨_, _, rfl, rfl, _, (Did.round s hwkv hwv hne).exec, hnext, ?_⟩
  rw [setWork_of_wkv hwkv, hwk]
  rfl

/-- Settles O41: the eight sums; with `WKV = 0` every read of `WK` is free. -/
theorem foldAdds : Obligations.FoldAdds := by
  intro s _ hwkv hhv hrc
  refine ⟨addFiles s.h s.wk, ?_, fun i => addFiles_get _ _ i.val i.isLt, fun _ => rfl⟩
  rw [(Did.fold s hwkv hhv (Fin.ext hrc)).exec, setHash_of_hv hhv]
  rfl

/-! ### `compress` -/

/-- Settles O42: the schedule does not depend on what `W` held. -/
theorem compressComputes : Obligations.CompressComputes := by
  intro s blk _ hpbv hblk hhv
  refine ⟨_, (Did.compress s blk hpbv hblk hhv).exec, ?_⟩
  simp only [compressBody_eq, expand_loadLow s.w (Vector.replicate 64 0), hhv]

/-! ### `hash`, and what the digests depend on -/

/-- Settles O44: the blocks of `hash` with the schedule of the last one; where R21 does not hold, the check fails (U16). -/
theorem hashComputesSha256 : Obligations.HashComputesSha256 := by
  refine fun s _ => ⟨fun hok => ⟨_, (Did.hash s hok).exec, ?_⟩, fun hbad => ?_⟩
  · rw [hashRun_w]
  · simp only [exec, execHash, hbad, Bool.false_eq_true, if_false]

theorem dg_of_exec_hash (h : exec .hash s = .next t) : t.dg = sha256 s.msg := by
  obtain d | ⟨c, -, r⟩ := exec_next .hash s t h
  · cases d; rfl
  · cases r

/-- Without an error `hmac` writes the digest of key and message, which its checks let through (R205). -/
theorem eq_of_exec_hmac (h : exec .hmac s = .next t) (hf : t.fault = false) :
    s.key ≠ [] ∧ s.msg.tc = 0 ∧ t = (s.setDigest (digestWords (hmacFn s.key s.msg.data))).dropAll := by
  obtain d | ⟨c, rfl, -⟩ := exec_next .hmac s t h
  · cases d; exact ⟨‹_›, ‹_›, rfl⟩
  · cases hf

/-- Settles O46: both states fix `DG` from the buffers they share. -/
theorem resultsDependOnBuffersOnly : Obligations.ResultsDependOnBuffersOnly := by
  refine fun s s' t t' _ hf' hmsg => ⟨fun h h' => ?_, fun hkey h h' _ hf => ?_⟩
  · rw [dg_of_exec_hash h, dg_of_exec_hash h', hmsg]
  · obtain ⟨hk, hm, rfl⟩ := eq_of_exec_hmac h hf
    rw [(Did.hmac s' (hkey ▸ hk) (hmsg ▸ hm)).exec] at h'
    cases h'
    refine ⟨rfl, hf', ?_⟩
    simp only [State.dropAll_dg, State.setDigest_dg, hkey, hmsg]

end Sys2Proof.Machine
end

/-! # Commands that equal sequences of commands

Each word of a sequence has the effect of its command (`issueAll_did_cons`). The inductions over the rounds and over the blocks leave the
rest of the sequence free. -/
section
namespace Sys2Proof.Machine

variable {s t : State} {i : Instr}

@[simp] theorem compressBody_fault (b : Nat) (s : State) : (compressBody b s).fault = s.fault := by simp [compressBody]
@[simp] theorem compressBody_hv (b : Nat) (s : State) : (compressBody b s).hv = true := by simp [compressBody]

/-- A command that raises no error does not lead into the fault state. -/
theorem Did.fault_eq_false (d : Did i s t) (hf : s.fault = false) : t.fault = false := by cases d <;> simp [hf]

/-- Outside the fault state the word of a legal command has the command's effect (R51, R66). -/
theorem issueAll_did_cons (d : Did i s t) (hw : i.wellFormed = true) (hf : s.fault = false) (vs : List Word) :
    issueAll (encode i :: vs) s = issueAll vs t :=
  issueAll_encode_cons hf hw d.exec vs

theorem cmdWrite_did (d : Did i s t) (hw : i.wellFormed = true) (hf : s.fault = false) : cmdWrite (encode i) s = .next t := by
  rw [cmdWrite_run _ s hf, runCommand_ok _ i s (decodeOfEncode i hw), d.exec]

/-! ### `compress` (R173) -/

/-- The second of two writes of `WK` counts. -/
@[simp] theorem setWork_setWork (s : State) (x x' : Vector Word 8) (n n' : Fin 65) :
    (s.setWork x n).setWork x' n' = s.setWork x' n' := rfl

/-- After `wk.load`, `n` rounds are `runRounds` (R165, R173). -/
theorem issueAll_rounds (wk : Vector Word 8) (hf : s.fault = false) (hwv : s.wv = .full) {n : Nat} (hn : n ≤ 64) (vs : List Word) :
    issueAll (List.replicate n (encode .round) ++ vs) (s.setWork wk 0) =
      issueAll vs (s.setWork (runRounds s.w wk n) (Fin.ofNat 65 n)) := by
  induction n generalizing vs with
  | zero => rfl
  | succ n ih =>
    have hval : (Fin.ofNat 65 n).val = n := Nat.mod_eq_of_lt (by omega)
    have hne : Fin.ofNat 65 n ≠ 64 := Fin.ne_of_val_ne (hval.trans_ne (Nat.ne_of_lt hn))
    have hnext : Fin.ofNat 65 n + 1 = Fin.ofNat 65 (n + 1) := Fin.ext (by rw [Fin.val_add, hval]; rfl)
    have hround := Did.round (s.setWork (runRounds s.w wk n) (Fin.ofNat 65 n)) rfl hwv hne
    rw [List.replicate_succ', List.append_assoc, ih (by omega), List.singleton_append, issueAll_did_cons hround rfl hf,
      setWork_setWork, State.setWork_wk, State.setWork_rc, State.setWork_w, hval, hnext, runRounds_succ]

/-- `wk.load`, 64 rounds and `fold` make the writes of `compress` that follow the schedule (R167, R173). -/
theorem issueAll_wkLoad_rounds_fold (hf : s.fault = false) (hhv : s.hv = true) (hwv : s.wv = .full) :
    issueAll (encode .wkLoad :: (List.replicate 64 (encode .round) ++ [encode .fold])) s =
      .next ((s.setWork (runRounds s.w s.h 64) 64).setHash (addFiles s.h (runRounds s.w s.h 64))).dropWork := by
  rw [issueAll_did_cons (Did.wkLoad s hhv) rfl hf, issueAll_rounds s.h hf hwv le_rfl]
  exact issueAll_did_cons (Did.fold (s.setWork (runRounds s.w s.h 64) 64) rfl ((State.setWork_hv s _ _).trans hhv) rfl) rfl
    ((State.setWork_fault s _ _).trans hf) []

theorem blockSequence_eq (blk : BitVec 16) : blockSequence blk =
    encode (.blkLoad blk) :: encode .sched :: encode .wkLoad :: (List.replicate 64 (encode .round) ++ [encode .fold]) := by
  rw [encode_blkLoad]
  rfl

/-- Settles O43: the step commands make the writes of the body of `compress` one by one. -/
theorem compressEqualsSteps : Obligations.CompressEqualsSteps := by
  intro s blk hf hpbv hblk hhv
  have hcompress := cmdWrite_did (Did.compress s blk hpbv hblk hhv) rfl hf
  rw [encode_compress] at hcompress
  refine ⟨_, hcompress, ?_⟩
  have hload := Did.blkLoad s blk hpbv hblk
  have hsched := Did.sched (s.setSched (loadLow s.w (blockWords s.pb blk.toNat)) .lo) nofun
  rw [setSched_setSched, State.setSched_w] at hsched
  have hfload := hload.fault_eq_false hf
  have hhvsched := (State.setSched_hv s (expand (loadLow s.w (blockWords s.pb blk.toNat))) .full).trans hhv
  rw [blockSequence_eq, issueAll_did_cons hload rfl hf, issueAll_did_cons hsched rfl hfload,
    issueAll_wkLoad_rounds_fold (hsched.fault_eq_false hfload) hhvsched rfl, State.setSched_w, State.setSched_h, compressBody]

/-! ### `hash` (R172) -/

/-- What the checks of the commands of R172 read does not change from block to block. -/
theorem compressAll_checks (n : Nat) (hf : s.fault = false) (hpbv : s.pbv = true) (hhv : s.hv = true) :
    (compressAll n s).fault = false ∧ (compressAll n s).pbv = true ∧ (compressAll n s).hv = true := by
  induction n with
  | zero => exact ⟨hf, hpbv, hhv⟩
  | succ n ih =>
    obtain ⟨hfault, hpbv, -⟩ := ih
    rw [compressAll_succ, compressBody_fault, compressBody_pbv, compressBody_hv]
    exact ⟨hfault, hpbv, rfl⟩

/-- The word of `compress n`. -/
def compressWord (n : Nat) : Word := BitVec.ofNat 32 (0x26000000 + n)

/-- `compress 0` to `compress n - 1` are the first `n` blocks of `hash` (R172). -/
theorem issueAll_compressWords {n : Nat} (hn : n ≤ 65536) (hf : s.fault = false) (hpbv : s.pbv = true) (hhv : s.hv = true)
    (hblocks : n ≤ s.pb.length / 64) (vs : List Word) :
    issueAll ((List.range n).map compressWord ++ vs) s = issueAll vs (compressAll n s) := by
  induction n generalizing vs with
  | zero => rfl
  | succ n ih =>
    obtain ⟨hf', hpbv', hhv'⟩ := compressAll_checks n hf hpbv hhv
    have hblk : (BitVec.ofNat 16 n).toNat = n := Nat.mod_eq_of_lt (by omega)
    have hword : compressWord n = encode (.compress (BitVec.ofNat 16 n)) := by rw [encode_compress, hblk, compressWord]
    have hcompress := Did.compress (compressAll n s) (BitVec.ofNat 16 n) hpbv' (by rw [hblk, compressAll_pb]; exact hblocks) hhv'
    rw [hblk, ← compressAll_succ] at hcompress
    rw [List.range_succ, List.map_append, List.append_assoc, ih (by omega) (by omega), List.map_singleton, List.singleton_append,
      hword, issueAll_did_cons hcompress rfl hf']

theorem hashRun_eq (s : State) :
    hashRun s = compressAll ((pad s.msg).length / 64) ((s.setPadded (pad s.msg)).setHash iv) := by
  rw [hashRun, nblk_of_valid _ rfl, State.setHash_pb, State.setPadded_pb]

theorem hashSequence_eq (n : Nat) : hashSequence n =
    encode .msgPad :: encode .hInit :: ((List.range n).map compressWord ++ [encode .digest]) := rfl

/-- Settles O45: after `msg.pad` and `h.init` the sequence runs the blocks of `hash` one by one. -/
theorem hashEqualsSequence : Obligations.HashEqualsSequence := by
  intro s hf hok hblocks
  have hhash : cmdWrite 0x30000000 s = .next ((hashRun s).setDigest (hashRun s).h) := by
    rw [cmdWrite_run _ s hf, runCommand_ok _ _ s (show decode 0x30000000 = .ok .hash from rfl), exec, execHash, if_pos hok, hashRun]
  refine ⟨_, hhash, ?_⟩
  have hpad := Did.msgPad s hok
  have hinit := Did.hInit (s.setPadded (pad s.msg))
  have hfinit := hinit.fault_eq_false (hpad.fault_eq_false hf)
  obtain ⟨hfrun, -, hhv⟩ := compressAll_checks ((pad s.msg).length / 64) hfinit rfl rfl
  rw [← hashRun_eq] at hfrun hhv
  rw [hashSequence_eq, issueAll_did_cons hpad rfl hf, issueAll_did_cons hinit rfl (hpad.fault_eq_false hf),
    issueAll_compressWords hblocks hfinit rfl rfl (by rw [State.setHash_pb, State.setPadded_pb]), ← hashRun_eq]
  exact issueAll_did_cons (Did.digest (hashRun s) hhv) rfl hfrun []

end Sys2Proof.Machine
end

/-! # HMAC

`hmac_fn` reads its key through the 64-byte block `K0` alone (R203, R204), so two keys with the same block are equivalent. -/
section
namespace Sys2Proof.Machine

variable {k k' : List Byte}

/-! ### The key block -/

/-- A key of at most one block is used as it is (R201). -/
theorem keyReduce_of_le (h : k.length ≤ 64) : keyReduce k = k := if_neg (Nat.not_lt.mpr h)

/-- A key longer than a block is replaced by its hash (R201). -/
theorem keyReduce_of_gt (h : 64 < k.length) : keyReduce k = sha256Bytes k := if_pos h

theorem keyBlock_of_le (h : k.length ≤ 64) : keyBlock k = k ++ List.replicate (64 - k.length) 0 := by
  rw [keyBlock, keyReduce_of_le h]

/-- The zeros that fill the block hide a zero byte at the end of the key. -/
theorem keyBlock_append_zero (h : k.length < 64) : keyBlock (k ++ [0]) = keyBlock k := by
  have hlen : (k ++ [(0 : Byte)]).length = k.length + 1 := by rw [List.length_append, List.length_singleton]
  have hpad : 64 - k.length = (64 - (k.length + 1)) + 1 := by omega
  rw [keyBlock_of_le (by omega), keyBlock_of_le (by omega), hlen, hpad, List.replicate_succ, List.append_assoc, List.singleton_append]

/-- The hash of a long key has 32 bytes, so it is not hashed again. -/
theorem keyBlock_sha256Bytes (h : 64 < k.length) : keyBlock (sha256Bytes k) = keyBlock k := by
  have hle : (sha256Bytes k).length ≤ 64 := by rw [sha256Bytes_length]; decide
  rw [keyBlock, keyBlock, keyReduce_of_gt h, keyReduce_of_le hle]

/-! ### `hmac_fn` -/

theorem hmacFn_of_keyBlock_eq (h : keyBlock k = keyBlock k') (m : List Byte) : hmacFn k m = hmacFn k' m := by
  rw [hmacFn, hmacFn, h]

/-- Settles O53: each clause is a fact about the key block. -/
theorem hmacFunction : Obligations.HmacFunction := by
  refine ⟨fun k m h => ?_, fun k m h => hmacFn_of_keyBlock_eq (keyBlock_append_zero h) m,
    fun k m h => (hmacFn_of_keyBlock_eq (keyBlock_sha256Bytes h) m).symm⟩
  rw [hmacFn, keyBlock_of_le h]
  rfl

/-! ### The command -/

/-- `DG` holds the whole result: `hmac_fn` answers the bytes of a digest, and grouping them loses nothing (R205). -/
theorem digestBytes_digestWords_hmacFn (k m : List Byte) : digestBytes (digestWords (hmacFn k m)) = hmacFn k m := by
  rw [hmacFn, sha256Bytes, digestWords_digestBytes]

/-- Settles O52: the effect of `hmac`; what it leaves unspecified has its valid bit at 0, so no read shows it. -/
theorem hmacComputes : Obligations.HmacComputes := by
  refine fun s _ hkey htail => ⟨_, (Did.hmac s hkey htail).exec, rfl, ?_, fun _ => ⟨rfl, rfl⟩, fun _ => ?_, rfl⟩
  · rw [State.dropAll_dg, State.setDigest_dg, digestBytes_digestWords_hmacFn]
  · exact readReg_w_of_invalid rfl

end Sys2Proof.Machine
end

/-! # The engine control commands

Each proof takes the effect of its command from `Did`. -/
section
namespace Sys2Proof.Machine

/-- The reset input and `sreset` have one effect, in the fault state too (R260, R245). -/
theorem hostEvent_powerOn_eq_exec_sreset (s : State) : hostEvent .powerOn s = exec .sreset s :=
  calc hostEvent .powerOn s
    _ = .next s.softReset := rfl
    _ = exec .sreset s := (Did.sreset s).exec.symm

/-- Settles O20: `sreset` answers `softReset`, and a pending reset input is taken as `sreset`. -/
theorem sresetEqualsPowerOn : Obligations.SresetEqualsPowerOn := by
  refine fun s => ⟨(Did.sreset s).exec, fun rest hq => ?_⟩
  calc step s
    _ = hostEvent .powerOn (s.setQueue rest) := step_cons s _ rest hq
    _ = exec .sreset (s.setQueue rest) := hostEvent_powerOn_eq_exec_sreset _

/-- Settles O24: the three effects. -/
theorem nopAndClearsComplete : Obligations.NopAndClearsComplete :=
  fun s _ => ⟨(Did.nop s).exec, (Did.msgClear s).exec, (Did.keyClear s).exec⟩

end Sys2Proof.Machine
end

/-! # The fault state and the way out of it

A `CMD` write is the only event that can raise an error or be dropped; the lemmas say what it does in each state of `FAULT`. -/
section
namespace Sys2Proof.Machine

variable {s t : State} {v : Word}

@[simp] theorem hostRead_fault (r : HostReg) (s : State) : (hostRead r s).fault = s.fault := by
  obtain ⟨w, -, e⟩ | ⟨-, e⟩ := hostRead_cases r s <;> rw [e]
  · exact s.setRead_fault w
  · exact s.drawRead_fault

/-- A word that decodes to no command raises `E_ILLEGAL` (R86, R232). -/
theorem runCommand_error {x : DecodeError} (h : decode v = .error x) : runCommand v s = .next (s.raise .illegal v) := by
  simp only [runCommand, h]

/-- In the fault state a word other than `sreset` is dropped (R241). -/
theorem cmdWrite_dropped (hf : s.fault = true) (hv : v ≠ 0x01000000) : cmdWrite v s = .next s := if_pos ⟨hf, hv⟩

/-- The word of `sreset` runs in every state (R241, R245). -/
theorem cmdWrite_sreset (s : State) : cmdWrite 0x01000000 s = exec .sreset s := by
  have hrun : cmdWrite 0x01000000 s = runCommand 0x01000000 s := if_neg fun h => h.2 rfl
  rw [hrun, runCommand_ok _ .sreset s rfl]

/-- The only `CMD` write that leads out of the fault state is `sreset` (R245). -/
theorem sreset_of_cmdWrite_leaves_fault (hf : s.fault = true) (h : cmdWrite v s = .next t) (ht : t.fault = false) :
    v = 0x01000000 ∧ t = s.softReset := by
  by_cases hv : v = 0x01000000
  · subst hv
    rw [cmdWrite_sreset, (Did.sreset s).exec] at h
    cases h
    exact ⟨rfl, rfl⟩
  · rw [cmdWrite_dropped hf hv] at h
    cases h
    simp [hf] at ht

/-- The only events that lead out of the fault state are the two resets (R245, R260). -/
theorem reset_of_hostEvent_leaves_fault {e : HostEvent} (hf : s.fault = true) (h : hostEvent e s = .next t) (ht : t.fault = false) :
    (e = .powerOn ∨ e = .write .w32 s.par.base 0x01000000) ∧ t = s.softReset := by
  obtain ⟨_, _, r, -, -, he⟩ | ⟨_, _, _, _, -, -, -, he⟩ | ⟨width, addr, v, rfl, hl, he⟩ | ⟨rfl, he⟩ | ⟨x, he⟩ :=
    hostEvent_cases e s <;> rw [he] at h
  · cases h
    simp [hf] at ht
  · cases h
    simp [hf] at ht
  · obtain ⟨rfl, rfl⟩ := sreset_of_cmdWrite_leaves_fault hf h ht
    obtain ⟨rfl, rfl⟩ := locate_cmd s.par width addr hl
    exact ⟨.inr rfl, rfl⟩
  · cases h
    exact ⟨.inl rfl, rfl⟩
  · cases h

/-- Settles O8: an idle block stays in the fault state, and of the events only the two resets lead out of it. -/
theorem faultStateLeftByResetOnly : Obligations.FaultStateLeftByResetOnly := by
  intro s t hf h ht
  cases hq : s.hostQ with
  | nil =>
    rw [step_nil s hq] at h
    cases h
    simp [hf] at ht
  | cons e rest =>
    rw [step_cons s e rest hq] at h
    obtain ⟨rfl | rfl, rfl⟩ := reset_of_hostEvent_leaves_fault (s := s.setQueue rest) hf h ht
    · exact ⟨rest, .inl rfl, rfl⟩
    · exact ⟨rest, .inr rfl, rfl⟩

/-- Settles O7: the three kinds of events in the fault state. -/
theorem faultStateDropsCommands : Obligations.FaultStateDropsCommands := by
  intro s rest hf
  refine ⟨fun v hv hq => ?_, fun hq => ?_, fun r hq => ?_⟩
  · rw [step_cmd s v rest hq]
    exact cmdWrite_dropped hf hv
  · rw [step_cmd s _ rest hq]
    exact cmdWrite_sreset _
  · obtain ⟨hsome, hnone⟩ := (accessesHaveNoSideEffect s r rest).1 hq
    cases hr : readReg r s with
    | some w => exact hsome w hr
    | none => exact hnone hr

/-- Settles O6: outside the fault state the word reaches the decoder. -/
theorem illegalWordRaises : Obligations.IllegalWordRaises := by
  intro s v x rest hf hd hq
  rw [step_cmd s v rest hq, cmdWrite_run v (s.setQueue rest) hf]
  exact runCommand_error hd

end Sys2Proof.Machine
end

/-! # The errors of the commands

A command that leads into the fault state raised one of its errors (`exec_raised`), so its next state is that of the fault entry. -/
section
namespace Sys2Proof.Machine

variable {s t : State} {i : Instr} {c : ErrCode} {v : Word}

/-- A command that leads into the fault state raised an error: the effect of a command by its rule does not (R240). -/
theorem exec_raised (hf : s.fault = false) (h : exec i s = .next t) (ht : t.fault = true) :
    ∃ c, Raised i s c ∧ t = s.raise c (encode i) := by
  obtain d | ⟨c, e, r⟩ := exec_next i s t h
  · simp [d.fault_eq_false hf] at ht
  · exact ⟨c, r, e⟩

/-- A command word that leads into the fault state is the word of the error, whether it decodes or not (R240). -/
theorem runCommand_raised (hf : s.fault = false) (h : runCommand v s = .next t) (ht : t.fault = true) :
    ∃ c, c ≠ .none ∧ t = s.raise c v := by
  cases hd : decode v with
  | ok i =>
    rw [runCommand_ok v i s hd] at h
    obtain ⟨c, r, rfl⟩ := exec_raised hf h ht
    obtain ⟨hv, -⟩ := encodeOfDecode v i hd
    exact ⟨c, r.ne_none, by rw [hv]⟩
  | error x =>
    rw [runCommand_error hd] at h
    cases h
    exact ⟨.illegal, nofun, rfl⟩

/-- Settles O9: outside the fault state a `CMD` write runs the word. -/
theorem errorsArePrecise : Obligations.ErrorsArePrecise := by
  intro s t v rest hf hq h ht
  rw [step_cmd s v rest hq, cmdWrite_run v (s.setQueue rest) hf] at h
  exact runCommand_raised (s := s.setQueue rest) hf h ht

/-- Settles O51: the error is one of `Raised`, whose constructors are the pairs of the table's column "raised by" (R231). -/
theorem errorsComeFromTheirCommands : Obligations.ErrorsComeFromTheirCommands := by
  intro i s t hf h ht
  obtain ⟨c, r, rfl⟩ := exec_raised hf h ht
  rw [State.raise_errCause]
  cases r with
  | msgByte | msgBits => simp
  | keyByte => simp
  | blkLoadPad | blkLoadRange | compressPad | compressRange => simp
  | sched | wkLoad | roundUninit | foldUninit | compressUninit | digest => simp
  | roundSeq | foldSeq => simp
  | hmacKey | hmacTail => simp

/-- The next state of an error, written out, with the command's word `v` (R240). -/
theorem exec_eq_of_raised (r : Raised i s c) (hv : encode i = v) :
    exec i s = .next { s with fault := true, errCause := c, errCmd := v } := hv ▸ r.exec

/-- Settles O27. -/
theorem msgFullRaises : Obligations.MsgFullRaises :=
  fun s _ => ⟨fun b hfull => exec_eq_of_raised (.msgByte s b hfull) (encode_msgByte b),
    fun n val _ hn _ hfull => exec_eq_of_raised (.msgBits s n val hfull) (encode_msgBits n val (by omega))⟩

/-- Settles O28: the byte fits exactly below the capacity. -/
theorem keyByteAppendsOrRaises : Obligations.KeyByteAppendsOrRaises :=
  fun s b _ => ⟨fun hfit => (Did.keyByte s b hfit).exec,
    fun hfull => exec_eq_of_raised (.keyByte s b (by omega)) (encode_keyByte b)⟩

/-- Settles O48. -/
theorem blockErrors : Obligations.BlockErrors :=
  fun s blk _ =>
    ⟨fun hp => ⟨exec_eq_of_raised (.blkLoadPad s blk hp) (encode_blkLoad blk),
      exec_eq_of_raised (.compressPad s blk hp) (encode_compress blk)⟩,
    fun hp hb => ⟨exec_eq_of_raised (.blkLoadRange s blk hp hb) (encode_blkLoad blk),
      exec_eq_of_raised (.compressRange s blk hp hb) (encode_compress blk)⟩⟩

/-- Settles O49. -/
theorem uninitErrors : Obligations.UninitErrors :=
  fun s _ => ⟨fun hw => exec_eq_of_raised (.sched s hw) rfl,
    fun hh => ⟨exec_eq_of_raised (.wkLoad s hh) rfl, exec_eq_of_raised (.digest s hh) rfl⟩,
    fun h => exec_eq_of_raised (.roundUninit s h) rfl,
    fun h => exec_eq_of_raised (.foldUninit s h) rfl,
    fun blk hp hb hh => exec_eq_of_raised (.compressUninit s blk hp hb hh) (encode_compress blk)⟩

/-- Settles O50: `RC` is 64 as a number exactly when it is the last value of its type. -/
theorem sequenceErrors : Obligations.SequenceErrors :=
  fun s _ hk => ⟨fun hw hr => exec_eq_of_raised (.roundSeq s hk hw (Fin.ext hr)) rfl,
    fun hh hr => exec_eq_of_raised (.foldSeq s hk hh (Fin.ne_of_val_ne hr)) rfl⟩

/-- Settles O54. -/
theorem hmacErrors : Obligations.HmacErrors :=
  fun s _ => ⟨fun hk => exec_eq_of_raised (.hmacKey s hk) rfl, fun hk hm => exec_eq_of_raised (.hmacTail s hk hm) rfl⟩

end Sys2Proof.Machine
end

/-! # The whole calls

A call loads its buffers byte by byte and then runs one command (R96). -/
section
namespace Sys2Proof.Machine

variable {s t : State}

/-- Commands issued after others start from the state the others end in. -/
theorem issueAll_append {us : List Word} (h : issueAll us s = .next t) (vs : List Word) : issueAll (us ++ vs) s = issueAll vs t := by
  induction us generalizing s with
  | nil => cases h; rfl
  | cons u us ih =>
    rw [issueAll] at h
    rw [List.cons_append, issueAll]
    cases hu : cmdWrite u s with
    | next r =>
      rw [hu] at h
      exact ih h
    | fault x | refused x =>
      rw [hu] at h
      cases h

/-! ### The loads of the buffers -/

/-- `msg.load` writes `MSG` alone (R96, R148). -/
theorem issueAll_msgLoad (hf : s.fault = false) {m : List Byte} (hfit : m.length ≤ s.par.msgCap) :
    issueAll ((Pseudo.msgLoad m).expansion.map encode) s = .next (s.setMsg (.ofBytes m)) :=
  (hostLoadsBuildTheMessage s hf).1 m hfit

@[simp] theorem setKey_setKey (s : State) (k k' : List Byte) : (s.setKey k).setKey k' = s.setKey k' := rfl

/-- `key.byte` once for each byte (R96). -/
theorem issueAll_keyByte (s : State) (k : List Byte) (hf : s.fault = false) (hfit : s.key.length + k.length ≤ s.par.keyCap) :
    issueAll ((k.map .keyByte).map encode) s = .next (s.setKey (s.key ++ k)) := by
  induction k generalizing s with
  | nil => rw [List.append_nil]; rfl
  | cons b k ih =>
    rw [List.length_cons] at hfit
    have hrest := ih (s.setKey (s.key ++ [b])) hf (by
      rw [State.setKey_key, State.setKey_par, List.length_append, List.length_singleton]
      omega)
    rw [List.map_cons, List.map_cons, issueAll_did_cons (Did.keyByte s b (by omega)) rfl hf, hrest, setKey_setKey,
      State.setKey_key, List.append_assoc, List.singleton_append]

/-- `key.load` writes `KEY` alone (R96). -/
theorem issueAll_keyLoad (hf : s.fault = false) {k : List Byte} (hfit : k.length ≤ s.par.keyCap) :
    issueAll ((Pseudo.keyLoad k).expansion.map encode) s = .next (s.setKey k) := by
  rw [Pseudo.expansion, List.map_cons, issueAll_did_cons (Did.keyClear s) rfl hf]
  exact issueAll_keyByte (s.setKey []) k hf (by rwa [State.setKey_key, State.setKey_par, List.length_nil, Nat.zero_add])

/-! ### The calls -/

/-- The buffer of a byte string that fits meets R21, which `hash` checks. -/
theorem ofBytes_ok {cap : Nat} {m : List Byte} (h : m.length ≤ cap) : (BitBuffer.ofBytes m).ok cap = true := by
  rw [BitBuffer.ok_iff]
  exact ⟨Nat.zero_lt_one, Nat.mul_le_mul_left 8 h⟩

/-- `sha256` is `msg.load` and `hash` (R96). -/
theorem sha256_expansion (m : List Byte) : (Pseudo.sha256 m).expansion.map encode =
    (Pseudo.msgLoad m).expansion.map encode ++ [encode .hash] :=
  List.map_append

/-- `hmac256` is `msg.load`, `key.load` and `hmac` (R96). -/
theorem hmac256_expansion (m k : List Byte) : (Pseudo.hmac256 m k).expansion.map encode =
    (Pseudo.msgLoad m).expansion.map encode ++ ((Pseudo.keyLoad k).expansion.map encode ++ [encode .hmac]) := by
  simp only [Pseudo.expansion, List.map_append, List.append_assoc, List.map_singleton]

/-- Settles O55: after the loads the last command raises no error, and its effect writes the result to `DG`. -/
theorem wholeCallsCompute : Obligations.WholeCallsCompute := by
  intro s m hf hm
  have hload := issueAll_msgLoad hf hm
  refine ⟨?_, fun k hk hfit => ?_⟩
  · have hhash := Did.hash (s.setMsg (.ofBytes m)) (ofBytes_ok hm)
    refine ⟨_, ?_, hhash.fault_eq_false hf, rfl, rfl⟩
    rw [sha256_expansion, issueAll_append hload]
    exact issueAll_did_cons hhash rfl hf []
  · have hhmac := Did.hmac ((s.setMsg (.ofBytes m)).setKey k) hk rfl
    refine ⟨_, ?_, hhmac.fault_eq_false hf, rfl, ?_⟩
    · rw [hmac256_expansion, issueAll_append hload, issueAll_append (issueAll_keyLoad (s := s.setMsg (.ofBytes m)) hf hfit)]
      exact issueAll_did_cons hhmac rfl hf []
    · exact digestBytes_digestWords_hmacFn k m

end Sys2Proof.Machine
end
